-- ==== Sys2Proof/Word.lean ====
section
/-! DEFINITION. The values the block moves (`00_scope.md` rules R5, R6 and section 7; `20_memory.md` rule R30):
bits, bytes, configuration values and sample amplitudes, all plain data. -/

namespace Sys2Proof

/-- `Q`, the type of the five configuration values and of the three `SYNTH` operands: exact rationals of either
sign (rule R5). -/
abbrev Q := Rat

/-- A bit: `true` is 1, `false` is 0 (`00_scope.md` section 7). -/
abbrev Bit := Bool

/-- A byte, and a character code 0..255 (`00_scope.md` section 7, rule R55). -/
abbrev Byte := BitVec 8

/-- The operation selector `cmd[2:0]` (rule R58). -/
abbrev Selector := BitVec 3

/-- One term `coeff · sin(2π · turns)` of an amplitude. -/
structure Term where
  coeff : Q
  turns : Q
deriving DecidableEq, Repr

/-- `Amp`: an amplitude of the exact reference arithmetic (rule R6), written as the finite sum of its terms.
Every sample of a tone at rational frequency and rate is one (`sin(2π · f · i / R)` with `f · i / R` rational), every
rational `q` is one (`q · sin(2π · 1/4)`), and so is every sum, product and multiple of those.
The block delivers no other amplitude. -/
abbrev Amp := List Term

/-- One amplitude of a sample operand: any real number (rules R6, R122). One that has the form of `Amp` is written out; any
other, such as `1/π`, is named by a number, and what real it is stays open (`Config.givenReals`; DESIGN CHOICE, log 1). -/
inductive Sample where
  | exact (a : Amp)
  | given (k : Nat)
deriving DecidableEq, Repr

end Sys2Proof
end

