-- ==== Sys2Proof/Machine/Amplitude.lean ====
section
/-! DEFINITION. The arithmetic of amplitudes, exact and computable (`00_scope.md` rule R6: the normative reference is
exact real arithmetic). An amplitude is a finite sum of terms `coeff · sin(2π · turns)` with rational coefficient and
phase. Sums, products and rational multiples stay in that form. Its sign is found by a rational enclosure: first a coarse
one, and where that does not settle it, one finer than the least distance from zero that a sum with these denominators
can have. So the sign is that of the exact real number, zero included. -/

namespace Sys2Proof.Machine

/-- The real number an amplitude stands for. -/
noncomputable def ampVal (a : Amp) : ℝ :=
  (a.map fun t => (t.coeff : ℝ) * Real.sin (2 * Real.pi * (t.turns : ℝ))).sum

/-- `frac(x) = x - floor(x)` (rule R84). -/
def frac (x : Q) : Q := x - x.floor

/-- Adds one term to a sum kept in rising order of phase. -/
def addTerm (t : Term) : Amp → Amp
  | [] => if t.coeff = 0 then [] else [t]
  | u :: rest =>
    if t.turns < u.turns then (if t.coeff = 0 then u :: rest else t :: u :: rest)
    else if t.turns = u.turns then
      (if t.coeff + u.coeff = 0 then rest else ⟨t.coeff + u.coeff, u.turns⟩ :: rest)
    else u :: addTerm t rest

/-- The sum of two amplitudes. -/
def ampAdd (a b : Amp) : Amp := a.foldr addTerm b

/-- A rational multiple of an amplitude. -/
def ampScale (q : Q) (a : Amp) : Amp :=
  if q = 0 then [] else a.map fun t => ⟨q * t.coeff, t.turns⟩

/-- The rational number `q` as an amplitude: `q · sin(2π · 1/4)`. -/
def ampOfRat (q : Q) : Amp := addTerm ⟨q, 1/4⟩ []

/-- A phase of the first half turn, folded onto the first quarter, where it has the same sine. -/
def foldPhase (φ : Q) : Q := if φ ≤ 1/4 then φ else 1/2 - φ

/-- `c · sin(2π · φ)` for a phase of the first half turn, `0 ≤ φ < 1/2`; `sin(2π · 1/12)` is the rational 1/2. -/
def sineHalfTurn (c φ : Q) : Amp :=
  if φ = 0 then []
  else if foldPhase φ = 1/12 then addTerm ⟨c / 2, 1/4⟩ []
  else addTerm ⟨c, foldPhase φ⟩ []

/-- `c · sin(2π · turns)` for every phase, in the one form its value has. -/
def ampSine (c turns : Q) : Amp :=
  if frac turns < 1/2 then sineHalfTurn c (frac turns) else sineHalfTurn (-c) (frac turns - 1/2)

/-- The product of two terms, `sin a · sin b = (cos(a - b) - cos(a + b)) / 2`. -/
def termMul (s t : Term) : Amp :=
  ampAdd (ampSine (s.coeff * t.coeff / 2) (s.turns - t.turns + 1/4))
    (ampSine (-(s.coeff * t.coeff / 2)) (s.turns + t.turns + 1/4))

/-- The product of two amplitudes. -/
def ampMul (a b : Amp) : Amp :=
  a.foldr (fun s acc => b.foldr (fun t acc => ampAdd (termMul s t) acc) acc) []

/-- The first `k` terms of the series of `arctan x`. -/
def arctanSum (x : Q) : Nat → Q
  | 0 => 0
  | k + 1 => arctanSum x k + (-1) ^ k * x ^ (2 * k + 1) / (2 * k + 1)

/-- A rational within `2 ^ -q` of `π`: a constant for small `q`, else Machin's formula
`π/4 = 4 arctan(1/5) - arctan(1/239)`. -/
def piApprox (q : Nat) : Q :=
  if q ≤ 64 then 314159265358979323846 / 10 ^ 20
  else
    ((4 * (4 * arctanSum (1/5) (q / 4 + 3) - arctanSum (1/239) (q / 4 + 3)) * 2 ^ (q + 1)).floor : Q) / 2 ^ (q + 1)

/-- `Σ_{m<n} (-y)^m · (2k+1)! / (2k+2m+1)!`, nested: with `y = x²` and `k = 0` it is the series of `sin x / x`. -/
def sineNested (y : Q) : Nat → Nat → Q
  | 0, _ => 0
  | n + 1, k => 1 - y / ((2 * k + 2) * (2 * k + 3)) * sineNested y n (k + 1)

/-- A rational within `2 ^ -(p+4)` (and the error of `piApprox`) of the angle `2π · frac turns`. -/
def angleApprox (p : Nat) (turns : Q) : Q :=
  ((2 * piApprox (p + 4) * frac turns * 2 ^ (p + 4)).floor : Q) / 2 ^ (p + 4)

/-- A rational within `2 ^ -p` of `sin(2π · turns)`. -/
def sineApprox (p : Nat) (turns : Q) : Q :=
  angleApprox p turns * sineNested (angleApprox p turns * angleApprox p turns) ((p + 24) / 2 + 1) 0

/-- The sum of the magnitudes of the coefficients. -/
def coeffNorm (a : Amp) : Q := a.foldr (fun t s => |t.coeff| + s) 0

/-- A rational within `coeffNorm a · 2 ^ -p` of the value of `a`. -/
def ampApprox (p : Nat) (a : Amp) : Q := a.foldr (fun t s => t.coeff * sineApprox p t.turns + s) 0

/-- The sign, where an enclosure of precision `p` settles it; else 0. -/
def signAt (p : Nat) (a : Amp) : SignType :=
  if coeffNorm a / 2 ^ p < ampApprox p a then 1
  else if ampApprox p a < -(coeffNorm a / 2 ^ p) then -1
  else 0

/-- The common denominator of the phases. -/
def turnsDen (a : Amp) : Nat := a.foldr (fun t n => Nat.lcm t.turns.den n) 1

/-- The common denominator of the coefficients. -/
def coeffDen (a : Amp) : Nat := a.foldr (fun t n => Nat.lcm t.coeff.den n) 1

/-- A precision at which an enclosure that holds zero proves the value zero: with `N = turnsDen a`, `D = coeffDen a` and
`B = 2 · D · coeffNorm a`, the number `2 · D · value` is an algebraic integer all of whose conjugates have magnitude at most
`B`, so it is zero or at least `B ^ -N` in magnitude. -/
def gapPrecision (a : Amp) : Nat :=
  (turnsDen a + 1) * (Nat.log2 (2 * coeffDen a * coeffNorm a).floor.toNat + 1) + 2

/-- The precision tried first. -/
def firstPrecision : Nat := 60

/-- The sign of any sum. -/
def signOfSum (a : Amp) : SignType :=
  if signAt firstPrecision a = 0 then signAt (gapPrecision a) a else signAt firstPrecision a

/-- The sign of a rational. -/
def ratSign (q : Q) : SignType := if q = 0 then 0 else if 0 < q then 1 else -1

/-- The sign of the exact real value of an amplitude. One term on the first quarter turn has its coefficient's sign. -/
def ampSign : Amp → SignType
  | [] => 0
  | [t] => if 0 < t.turns ∧ t.turns ≤ 1/4 then ratSign t.coeff else signOfSum [t]
  | t :: u :: rest => signOfSum (t :: u :: rest)

/-- `|a|` (`00_scope.md` section 7). -/
def ampAbs (a : Amp) : Amp := if ampSign a = -1 then ampScale (-1) a else a

/-- `sinTone(f, i, R) = sin(2π · f · i / R)` (rule R81). -/
def sinTone (f : Q) (i : Nat) (rate : Q) : Amp := ampSine 1 (f * i / rate)

end Sys2Proof.Machine
end

