-- ==== Sys2Proof/Config.lean ====
section
/-! DEFINITION. What an implementation fixes (`00_scope.md` rule R5) and the five-field configuration tuple that `CFG`
loads (`10_state.md` rule R10). The one free value is what real numbers the host's given amplitudes are. -/

namespace Sys2Proof

/-- `ENC_POLICY` (rules R5, R54): how `ENC` turns a message's bytes into bits. -/
inductive EncPolicy where
  | fixed8  -- rule R52
  | elide   -- rule R53
deriving DecidableEq, Repr

/-- The build-time parameters rule R5 leaves `OPEN` and a rule of the block reads. They are fixed when the hardware is
built (rule R17) and no step changes them; `exec` has no parameter argument, so the state carries them
(DESIGN CHOICE, log 4). The parameters R5 fixes (`SYNTH_DEGENERATE` rejects, `VERDICT_OUT` present) are built into the
meanings, and those it calls unbounded in the model (`MAX_BITS`, `MAX_SAMPLES`, `MAX_BYTES`) are unbounded. -/
structure Build where
  /-- `ENC_POLICY`, default `FIXED8`. -/
  encPolicy : EncPolicy
  /-- `CHAR_VALID` as a table: bit `v` is set when code `v` maps to a character (log 18); default all set. -/
  validCodes : BitVec 256
  /-- `TEXT_CAP`: `none` is the model's unbounded text, `some n` a realisation's capacity (rule R135). -/
  textCap : Option Nat
deriving DecidableEq, Repr

/-- The defaults of rule R5. -/
def Build.default : Build := { encPolicy := .fixed8, validCodes := BitVec.allOnes 256, textCap := none }

/-- `CHAR_VALID(v)` (rules R5, R55). -/
def Build.charValid (b : Build) (v : Byte) : Bool := b.validCodes.getLsbD v.toNat

/-- `PLACEHOLDER`, the character `?`: code 0x3F (rule R5; PRESUMED by the spec itself, log 17). -/
def placeholder : Byte := 0x3F#8

/-- `CONFIG`, the tuple {sample_rate, bit_duration, freq_high, freq_low, threshold_factor} (rule R10). -/
structure Configuration where
  sampleRate : Q
  bitDuration : Q
  freqHigh : Q
  freqLow : Q
  thresholdFactor : Q
deriving DecidableEq, Repr

/-- What the five fields hold before a `CFG` has succeeded. The spec gives no value and no operation reads them then
(rule R22); DESIGN CHOICE (log 3), and the host's read of them yields no value (`State.readConfig`). -/
def Configuration.unloaded : Configuration := ⟨0, 0, 0, 0, 0⟩

/-- The number `known + Σ |x_k| · weight` over the pairs `(k, weight)` of `given`, where `x_k` is the `k`-th given amplitude. The
energies and the threshold of a window of samples are such numbers (rules R108, R109), because a product's magnitude is the
product of the magnitudes. -/
structure Energy where
  known : Amp
  given : List (Nat × Amp)
deriving DecidableEq, Repr

/-- The real number, when the given amplitudes are `x`. -/
noncomputable def Energy.val (x : Nat → ℝ) (e : Energy) : ℝ :=
  Machine.ampVal e.known + (e.given.map fun p => |x p.1| * Machine.ampVal p.2).sum

/-- A choice of real numbers for the given amplitudes, with the sign of every number over them: the exact one (rule R6: the
exact reals are the reference). -/
inductive GivenReals where
  /-- Every given amplitude is 0. -/
  | silent
  /-- The given amplitudes are the reals `x`. -/
  | of (x : Nat → ℝ) (sign : Energy → SignType) (exact : ∀ e, sign e = SignType.sign (e.val x))
deriving Inhabited

/-- FREE VALUE: the reals that the host's given amplitudes are. Nothing constrains them (log 1). -/
opaque Config.givenReals : GivenReals

/-- The `k`-th given amplitude. -/
noncomputable def GivenReals.amplitude : GivenReals → Nat → ℝ
  | .silent, _ => 0
  | .of x _ _, k => x k

/-- The real number a sample is. -/
noncomputable def Sample.val (g : GivenReals) : Sample → ℝ
  | .exact a => Machine.ampVal a
  | .given k => g.amplitude k

end Sys2Proof
end

