-- ==== Sys2Proof/Machine/Operands.lean ====
section
/-! DEFINITION. How operands are cut up and put together: bit order (`20_memory.md` rules R33, R34), windows (rule R35),
and the two text-to-bit policies (`30_encoding.md` rules R52, R53). -/

namespace Sys2Proof.Machine

/-- `byteBits(v) = ⟨v[7], v[6], …, v[0]⟩`, most significant bit first (rule R33). -/
def byteBits (v : Byte) : List Bit :=
  [v.getLsbD 7, v.getLsbD 6, v.getLsbD 5, v.getLsbD 4, v.getLsbD 3, v.getLsbD 2, v.getLsbD 1, v.getLsbD 0]

/-- Element `k` of a bit sequence as a number. -/
def bitAt (g : List Bit) (k : Nat) : Nat := (g.getD k false).toNat

/-- `val8(g) = 128·g[0] + 64·g[1] + … + g[7]` (rule R33). -/
def val8 (g : List Bit) : Byte :=
  BitVec.ofNat 8 (128 * bitAt g 0 + 64 * bitAt g 1 + 32 * bitAt g 2 + 16 * bitAt g 3 + 8 * bitAt g 4 + 4 * bitAt g 5
    + 2 * bitAt g 6 + bitAt g 7)

/-- `V = Σ m[k] · 256^(B-1-k)`: the message as one big-endian number (rules R34, R53). -/
def messageValue (m : List Byte) : Nat := m.foldl (fun v b => 256 * v + b.toNat) 0

/-- The binary numeral of `v`, most significant bit first; for `v > 0` it has no leading 0 (rule R53). -/
def numeral (v : Nat) : List Bit := (List.range (Nat.log2 v + 1)).reverse.map fun k => v.testBit k

/-- Policy `FIXED8` (rule R52). -/
def encodeFixed8 (m : List Byte) : List Bit := m.flatMap byteBits

/-- Policy `ELIDE` (rule R53); a message of value 0 gives the one bit 0 (PRESUMED by the spec itself, log 16). -/
def encodeElide (m : List Byte) : List Bit :=
  if messageValue m = 0 then [false] else numeral (messageValue m)

/-- The bits of a message under a policy (rule R54). -/
def encodeMessage : EncPolicy → List Byte → List Bit
  | .fixed8, m => encodeFixed8 m
  | .elide, m => encodeElide m

/-- The slices `[j·n, (j+1)·n)` that tile a sequence from offset 0; a shorter remainder is in none (rules R35, R106). -/
def tiles {α : Type} (n : Nat) (xs : List α) : List (List α) :=
  (List.range (xs.length / n)).map fun j => (xs.drop (j * n)).take n

end Sys2Proof.Machine
end

