-- ==== Sys2Proof/Syntax.lean ====
section
/-! DEFINITION. The operations of the block, whole (`30_encoding.md` rules R56, R57 and every row of
`opcode_table.json`), the request a requester puts on the ports (`20_memory.md` rule R47), and the moves a host makes
(`45_host_environment.md` rule R148). -/

namespace Sys2Proof

/-- One constructor per row of `opcode_table.json`, with the operands of the row's format (rule R57). -/
inductive Instr where
  /-- Format `C`: the five scalar operands in the source's tuple order (rule R70). -/
  | cfg (sampleRate bitDuration freqHigh freqLow thresholdFactor : Q)
  /-- Format `T`: the three scalar operands in the source's argument order (rule R80). -/
  | synth (frequency duration sampleRate : Q)
  /-- Format `S` on `BYTE_IN` (rule R90). -/
  | enc (message : List Byte)
  /-- Format `S` on `BIT_IN` (rule R93). -/
  | mod (bits : List Bit)
  /-- Format `S` on `SMP_IN` (rule R105). -/
  | demod (samples : List Sample)
  /-- Format `S` on `BIT_IN` (rule R125). -/
  | feed (bits : List Bit)
  /-- Format `N` (rule R133). -/
  | arst
  /-- Pseudo-operation: `ENC` then `MOD` (rules R62, R99). -/
  | tx (message : List Byte)
  /-- Pseudo-operation: `DEMOD` then `FEED` (rules R62, R134). -/
  | rx (samples : List Sample)
  /-- Selector `000`, which selects no operation (rule R59). -/
  | reserved
deriving DecidableEq, Repr

/-- The input side of the interface while a requester asks for an operation (rule R47): the selector and every operand
port. The selector's format says which ports the operation reads (rule R57). -/
structure Request where
  cmd : Selector
  cfgSampleRate : Q
  cfgBitDuration : Q
  cfgFreqHigh : Q
  cfgFreqLow : Q
  cfgThresholdFactor : Q
  synFrequency : Q
  synDuration : Q
  synSampleRate : Q
  byteIn : List Byte
  bitIn : List Bit
  smpIn : List Sample
deriving DecidableEq, Repr

/-- A request with selector `c` and every operand port at zero or empty. -/
def Request.idle (c : Selector) : Request :=
  { cmd := c, cfgSampleRate := 0, cfgBitDuration := 0, cfgFreqHigh := 0, cfgFreqLow := 0, cfgThresholdFactor := 0,
    synFrequency := 0, synDuration := 0, synSampleRate := 0, byteIn := [], bitIn := [], smpIn := [] }

/-- What the host can do to the block (rule R148): ask for an operation on the ports, issue one of the two
pseudo-operations (two operations back to back, rule R62), or pulse `rst` (rule R185). -/
inductive Move where
  | request (r : Request)
  | transmit (message : List Byte)
  | receive (samples : List Sample)
  /-- Hardware reset. The first `delivered` elements of the last operation's result stand, the rest is never
  delivered (rule R187). -/
  | reset (delivered : Nat)
deriving DecidableEq, Repr

end Sys2Proof
end

