-- ==== Sys2Proof/WellFormed.lean ====
section
/-! DEFINITION. Which operand data are in the form the block's own outputs have. The ports are typed, so an ill-typed
operand cannot be written (`30_encoding.md` rule R60) and every length is legal; what is checked is that an amplitude is
written in the one form of its terms (log 23). The meanings do not depend on it: they are exact for every list of terms. -/

namespace Sys2Proof

/-- A term is in form when its coefficient is not zero and its phase lies in the first quarter turn, where the sine is
positive and strictly increasing; phase 1/12, whose sine is the rational 1/2, is written on phase 1/4 instead. -/
def Term.wf (t : Term) : Bool :=
  t.coeff ≠ 0 ∧ 0 < t.turns ∧ t.turns ≤ 1/4 ∧ t.turns ≠ 1/12

/-- Terms in form, in strictly rising order of phase: so no phase twice, and zero is the empty sum. -/
def Amp.wf : Amp → Bool
  | [] => true
  | t :: rest => t.wf && rest.all (fun u => t.turns < u.turns) && Amp.wf rest

/-- A sample that is written out is in form; a given one has no form to break. -/
def Sample.wf : Sample → Bool
  | .exact a => Amp.wf a
  | .given _ => true

/-- Every amplitude of a sample operand is in form; the other operands have no form to break. -/
def Instr.wf : Instr → Bool
  | .demod samples => samples.all Sample.wf
  | .rx samples => samples.all Sample.wf
  | .cfg _ _ _ _ _ => true
  | .synth _ _ _ => true
  | .enc _ => true
  | .mod _ => true
  | .feed _ => true
  | .arst => true
  | .tx _ => true
  | .reserved => true

end Sys2Proof
end

