-- ==== Sys2Proof/Decode.lean ====
section
/-! DEFINITION. Selector codes (`30_encoding.md` rules R57, R58, R59 and `opcode_table.json`): the decoder of a request,
total on every request, the decoder of a selector word, and the encoder. -/

namespace Sys2Proof

/-- The operation a request asks for: the selector picks it and its format picks the operand ports it reads
(rules R57, R58). Code `000` is the reserved row (rule R59). -/
def decode (r : Request) : Instr :=
  match r.cmd.toNat with
  | 1 => .cfg r.cfgSampleRate r.cfgBitDuration r.cfgFreqHigh r.cfgFreqLow r.cfgThresholdFactor
  | 2 => .synth r.synFrequency r.synDuration r.synSampleRate
  | 3 => .enc r.byteIn
  | 4 => .mod r.bitIn
  | 5 => .demod r.smpIn
  | 6 => .feed r.bitIn
  | 7 => .arst
  | _ => .reserved

/-- Why a word is no selector. -/
inductive DecodeError where
  /-- The word has fewer than the three bits of `cmd[2:0]`. -/
  | tooFewBits
  /-- A bit above `cmd[2:0]` is set; the port is three bits wide (rule R47). -/
  | notASelector
deriving DecidableEq, Repr

/-- The request whose selector is the word `w` of `nbits` bits. The spec gives no operand a bit layout (rule R57), so
the operand ports carry zeros and empty sequences (log 15). -/
def requestOfWord (nbits w : Nat) : Except DecodeError Request :=
  if nbits < 3 then .error .tooFewBits
  else if 8 ≤ w then .error .notASelector
  else .ok (Request.idle (BitVec.ofNat 3 w))

/-- The operation a selector word stands for, or the name of what is wrong with it. -/
def decodeWord (nbits w : Nat) : Except DecodeError Instr :=
  match requestOfWord nbits w with
  | .ok r => .ok (decode r)
  | .error e => .error e

/-- The instruction the decoder reads from a word of the opcode table (bit 0 the least significant). -/
def decodeTableWord (nbits w : Nat) : Option Instr :=
  match decodeWord nbits w with
  | .ok i => some i
  | .error _ => none

/-- The selector codes of an operation, in order of issue (rule R58 and the table's `encoding` column): one code, or the
two codes of a pseudo-operation, which has none of its own (rule R62). -/
def selectors : Instr → List Selector
  | .cfg _ _ _ _ _ => [0b001#3]
  | .synth _ _ _ => [0b010#3]
  | .enc _ => [0b011#3]
  | .mod _ => [0b100#3]
  | .demod _ => [0b101#3]
  | .feed _ => [0b110#3]
  | .arst => [0b111#3]
  | .tx _ => [0b011#3, 0b100#3]
  | .rx _ => [0b101#3, 0b110#3]
  | .reserved => [0b000#3]

/-- The one request that asks for an operation, its unused ports idle; a pseudo-operation has no selector code of its
own (rule R62) and so no request of its own. -/
def encode : Instr → Option Request
  | .cfg sr bd fh fl tf =>
    some { Request.idle 0b001#3 with
      cfgSampleRate := sr, cfgBitDuration := bd, cfgFreqHigh := fh, cfgFreqLow := fl, cfgThresholdFactor := tf }
  | .synth f d r => some { Request.idle 0b010#3 with synFrequency := f, synDuration := d, synSampleRate := r }
  | .enc m => some { Request.idle 0b011#3 with byteIn := m }
  | .mod bits => some { Request.idle 0b100#3 with bitIn := bits }
  | .demod samples => some { Request.idle 0b101#3 with smpIn := samples }
  | .feed bits => some { Request.idle 0b110#3 with bitIn := bits }
  | .arst => some (Request.idle 0b111#3)
  | .tx _ => none
  | .rx _ => none
  | .reserved => some (Request.idle 0b000#3)

end Sys2Proof
end

