-- ==== Sys2Proof/Machine/Energy.lean ====
section
/-! DEFINITION. Arithmetic and comparison of energies (`43_demodulator.md` rules R108 to R111) over samples that are any real
numbers (rule R122). Where no given amplitude is involved everything is computed; where one is, the comparison is the exact one
of the reals it stands for, whatever they are. -/

namespace Sys2Proof.Machine

/-- The sum of two energies. -/
def energyAdd (a b : Energy) : Energy := ⟨ampAdd a.known b.known, a.given ++ b.given⟩

/-- A rational multiple of an energy. -/
def energyScale (q : Q) (e : Energy) : Energy := ⟨ampScale q e.known, e.given.map fun p => (p.1, ampScale q p.2)⟩

/-- The difference of two energies. -/
def energySub (a b : Energy) : Energy := energyAdd a (energyScale (-1) b)

/-- `|w · ref|` for one sample and one element of a reference tone. -/
def productMagnitude : Sample → Amp → Energy
  | .exact a, r => ⟨ampAbs (ampMul a r), []⟩
  | .given k, r => ⟨[], [(k, ampAbs r)]⟩

/-- The sign a choice of reals gives a number. -/
def GivenReals.signOf : GivenReals → Energy → SignType
  | .silent, e => ampSign e.known
  | .of _ sign _, e => sign e

/-- The sign of the exact real value. -/
def energySign (g : GivenReals) (e : Energy) : SignType :=
  match e.given with
  | [] => ampSign e.known
  | _ :: _ => GivenReals.signOf g e

/-- `a < b`, strict (`00_scope.md` section 7). -/
def energyLt (g : GivenReals) (a b : Energy) : Bool := energySign g (energySub b a) = 1

end Sys2Proof.Machine
end

