-- ==== Sys2Proof/Machine/State.lean ====
section
/-! DEFINITION. The state of the block (`10_state.md` rules R10 to R22), the values its output ports carry
(`20_memory.md` rule R30), and the ways a step can stop (`60_exceptions.md` rule R167). -/

namespace Sys2Proof.Machine

/-- `MODE` (rule R13). -/
inductive Mode where
  | unconfigured
  | ready
  | failed
deriving DecidableEq, Repr

/-- A verdict on `VER_OUT` (rule R113). -/
inductive Verdict where
  | zero
  | one
  | ambig
deriving DecidableEq, Repr

/-- The three error kinds the block raises, each with its info value (rule R160). -/
inductive BlockError where
  /-- Code 1, raised by `CFG`: the mask of failing clauses (rule R71). -/
  | configurationError (mask : BitVec 6)
  /-- Code 2, raised by `SYNTH`: the mask of causes (rule R83). -/
  | invalidParameter (mask : BitVec 3)
  /-- Code 3, raised by `FEED`: the value of the group (rule R127). -/
  | invalidByte (value : Byte)
deriving DecidableEq, Repr

/-- One element delivered on an output port (rules R30, R47). -/
inductive Emission where
  /-- on `smp_out` -/
  | sample (a : Amp)
  /-- on `bit_out` -/
  | bit (b : Bit)
  /-- on `ver_out` -/
  | verdict (v : Verdict)
  /-- on `chr_out`: a character code and the value of `TEXT` including it (rule R128) -/
  | report (code : Byte) (text : List Byte)
  /-- on `err` -/
  | error (e : BlockError)
deriving DecidableEq, Repr

/-- Stuck: the request is not accepted and the model has no step for it (rules R167 to R169). -/
inductive Fault where
  /-- Raised by every operation but `CFG` (and the reserved selector) while `MODE` is `Unconfigured` or `Failed`
  (rule R169). Safe: the requester waits, and no result, report or state change is invented. -/
  | notReady (mode : Mode)
  /-- Raised by `CFG` while `MODE` is `Ready` or `Failed` (rule R74). Safe, for the same reason. -/
  | configurationFixed (mode : Mode)
deriving DecidableEq, Repr

/-- Requests the spec has a model refuse by name (rule R167). -/
inductive Refusal where
  /-- An arm of `exec` whose instruction has no meaning yet. Raised by no meaning; safe. -/
  | notModelled (mnemonic : String)
  /-- Raised by selector `000` (rule R59: "A model refuses code `000` by name"). Safe. -/
  | reservedSelector
  /-- Raised by `FEED` and `RX` when the text would pass a finite `TEXT_CAP` (rule R135). Safe. -/
  | textCapacity
deriving DecidableEq, Repr

/-- Everything the block keeps (rule R17), then three fields of the model's own. -/
structure State where
  /-- `CONFIG` (rule R10). Unloaded until a `CFG` succeeds. -/
  config : Configuration
  /-- `L`, the samples per symbol (rule R12). -/
  samplesPerSymbol : Nat
  /-- `MODE` (rule R13). -/
  mode : Mode
  /-- `RES`, the residual bits, element 0 the oldest (rule R15). -/
  res : List Bit
  /-- `TEXT`, the decoded character codes in decoding order (rule R16). -/
  text : List Byte
  /-- The model's own: what the last accepted operation delivered on the output ports, in order (rule R9; log 8). -/
  out : List Emission
  /-- The model's own: the host's moves still to come, the next one first (rules R9, R148; log 5). -/
  pending : List Move
  /-- The model's own: the build-time parameters (rule R5; log 4). -/
  build : Build
deriving DecidableEq, Repr

/-- After hardware reset (rules R22, R185), with nothing requested and the default parameters. `config` and
`samplesPerSymbol` are unspecified there: DESIGN CHOICE (log 3). -/
def State.reset : State :=
  { config := .unloaded, samplesPerSymbol := 0, mode := .unconfigured, res := [], text := [], out := [],
    pending := [], build := .default }

/-- What a step of the block answers. -/
abbrev Result := Host.Outcome State Fault Refusal

end Sys2Proof.Machine
end

