-- ==== Sys2Proof/Machine/Flags.lean ====
section
/-! DEFINITION. Status values: the validity masks of `CFG` and `SYNTH`, the verdict of a window, and the codes and ports by
which the host sees them. The block has no condition codes and no sticky flags (`10_state.md` rule R20). -/

namespace Sys2Proof.Machine

/-- `invalidMask` (rule R71): one bit per clause, set when the clause fails. Clause 5 is tested only when clauses 0 and 1
hold. -/
def invalidMask (c : Configuration) : BitVec 6 :=
  BitVec.ofBool (decide (0 < c.sampleRate) && decide (0 < c.bitDuration)
      && !decide (1 ≤ (c.sampleRate * c.bitDuration).floor))
    ++ BitVec.ofBool (!(decide (0 < c.thresholdFactor) && decide (c.thresholdFactor < 1)))
    ++ BitVec.ofBool (!decide (0 < c.freqLow))
    ++ BitVec.ofBool (!decide (0 < c.freqHigh))
    ++ BitVec.ofBool (!decide (0 < c.bitDuration))
    ++ BitVec.ofBool (!decide (0 < c.sampleRate))

/-- The causes of `InvalidParameter` (rule R83): bit 0 the frequency, bit 1 the duration, bit 2 the sample rate. -/
def degenerateMask (frequency duration rate : Q) : BitVec 3 :=
  BitVec.ofBool (decide (rate ≤ 0)) ++ BitVec.ofBool (decide (duration ≤ 0)) ++ BitVec.ofBool (decide (frequency ≤ 0))

/-- Energy of a window against a reference: `Σ_k |w[k] · ref[k]|`, summed in rising `k` (rule R108). -/
def energy (w : List Sample) (ref : List Amp) : Energy :=
  (List.zipWith productMagnitude w ref).foldl energyAdd ⟨[], []⟩

/-- The classification by two energies and the threshold, all comparisons strict (rules R109, R111). -/
def classify (g : GivenReals) (factor : Q) (eHigh eLow : Energy) : Verdict :=
  let t := energyScale factor (energyAdd eHigh eLow)
  if energyLt g t eHigh && energyLt g eLow t then .one
  else if energyLt g t eLow && energyLt g eHigh t then .zero
  else .ambig

/-- `ver_out` (rule R63). -/
def Verdict.code : Verdict → BitVec 2
  | .zero => 0b00#2
  | .one => 0b01#2
  | .ambig => 0b10#2

/-- `mode` (rule R64). -/
def Mode.code : Mode → BitVec 2
  | .unconfigured => 0b00#2
  | .ready => 0b01#2
  | .failed => 0b10#2

/-- The codes of all six error kinds (rule R160); the last three belong to the environment and are never on `err`
(rule R164). -/
inductive ErrorKind where
  | configurationError
  | invalidParameter
  | invalidByte
  | deviceError
  | queueOverflow
  | transportError
deriving DecidableEq, Repr

/-- The numeric code (rule R160). -/
def ErrorKind.code : ErrorKind → Nat
  | .configurationError => 1
  | .invalidParameter => 2
  | .invalidByte => 3
  | .deviceError => 4
  | .queueOverflow => 5
  | .transportError => 6

/-- The kind of an error the block raises. -/
def BlockError.kind : BlockError → ErrorKind
  | .configurationError _ => .configurationError
  | .invalidParameter _ => .invalidParameter
  | .invalidByte _ => .invalidByte

/-- The info value of an error report (rule R160). -/
def BlockError.info : BlockError → Nat
  | .configurationError m => m.toNat
  | .invalidParameter m => m.toNat
  | .invalidByte v => v.toNat

/-- An error report is the pair (code, info) (rule R160). -/
def BlockError.report (e : BlockError) : Nat × Nat := (e.kind.code, e.info)

/-- What `smp_out` carried in a sequence of deliveries. -/
def smpOut (es : List Emission) : List Amp :=
  es.filterMap fun | .sample a => some a | .bit _ => none | .verdict _ => none | .report _ _ => none | .error _ => none

/-- What `bit_out` carried. -/
def bitOut (es : List Emission) : List Bit :=
  es.filterMap fun | .bit b => some b | .sample _ => none | .verdict _ => none | .report _ _ => none | .error _ => none

/-- What `ver_out` carried. -/
def verOut (es : List Emission) : List Verdict :=
  es.filterMap fun | .verdict v => some v | .sample _ => none | .bit _ => none | .report _ _ => none | .error _ => none

/-- What `chr_out` carried. -/
def chrOut (es : List Emission) : List (Byte × List Byte) :=
  es.filterMap fun | .report c t => some (c, t) | .sample _ => none | .bit _ => none | .verdict _ => none | .error _ => none

/-- What `err` carried. -/
def errOut (es : List Emission) : List BlockError :=
  es.filterMap fun | .error e => some e | .sample _ => none | .bit _ => none | .verdict _ => none | .report _ _ => none

/-- The host's read of `CONFIG` (rules R11, R21): no value before a `CFG` has succeeded (rule R22). -/
def State.readConfig (s : State) : Option Configuration :=
  match s.mode with
  | .ready => some s.config
  | .unconfigured => none
  | .failed => none

/-- The host's read of `L` (rules R21, R22). -/
def State.readL (s : State) : Option Nat :=
  match s.mode with
  | .ready => some s.samplesPerSymbol
  | .unconfigured => none
  | .failed => none

/-- `res_len`, the host's read of `len(RES)`; `RES` itself is not readable (rules R21, R47). -/
def State.resLen (s : State) : Nat := s.res.length

end Sys2Proof.Machine
end

