-- ==== Sys2Proof/Machine/Ops.lean ====
section
/-! DEFINITION. The operations the meanings share: acceptance (`60_exceptions.md` rules R167 to R169), delivery of a
result, raising an error (rules R160, R172), the two resets (`70_reset_and_hazards.md` rule R186), issuing two operations
back to back (`30_encoding.md` rule R62), and taking the host's next move. -/

namespace Sys2Proof.Machine

/-- The state once an operation has delivered `es` on the output ports (log 8). -/
def State.deliver (s : State) (es : List Emission) : State := { s with out := es }

/-- Accepted only when `MODE = Ready`, else stuck: no output, no report, no state change (rule R169). -/
def State.whenReady (s : State) (result : Result) : Result :=
  match s.mode with
  | .ready => result
  | .unconfigured => .fault (.notReady .unconfigured)
  | .failed => .fault (.notReady .failed)

/-- Accepted only when `MODE = Unconfigured`, else stuck (rule R74). -/
def State.whenUnconfigured (s : State) (result : Result) : Result :=
  match s.mode with
  | .unconfigured => result
  | .ready => .fault (.configurationFixed .ready)
  | .failed => .fault (.configurationFixed .failed)

/-- `raise E(info)`: the report goes out on `err` after what the operation has delivered so far, and the state changes as
the effect column of rule R160 says. No state is saved, no mode of privilege switched and no handler entered (rule R172);
there is nothing to return from (rule R173). -/
def State.raise (s : State) (e : BlockError) : State :=
  match e with
  | .configurationError _ => { s with mode := .failed, out := s.out ++ [.error e] }
  | .invalidParameter _ => { s with out := s.out ++ [.error e] }
  | .invalidByte _ => { s with out := s.out ++ [.error e] }

/-- The assembler's registers emptied (rule R133). -/
def State.clearAssembler (s : State) : State := { s with res := [], text := [] }

/-- Hardware reset (rules R22, R185). Of the last operation's result the first `delivered` elements stand (rule R187; log 10).
`CONFIG` and `L` are unspecified from here on (log 3). The parameters and the host's further moves are not the block's. -/
def State.hardwareReset (s : State) (delivered : Nat) : State :=
  { State.reset with out := s.out.take delivered, pending := s.pending, build := s.build }

/-- One operation, then a second that takes the first one's result, issued back to back by one requester (rule R62).
Both results are delivered, the first one's first (log 9). -/
def thenIssue (first : Result) (second : State → Result) : Result :=
  match first with
  | .next s =>
    match second s with
    | .next t => .next (t.deliver (s.out ++ t.out))
    | .fault f => .fault f
    | .refused r => .refused r
  | .fault f => .fault f
  | .refused r => .refused r

/-- What the next step is to do, and the state in which it does it. -/
inductive Next where
  /-- No request: between operations the block holds its state and does nothing (rule R179). -/
  | idle
  /-- An operation to execute. -/
  | operation (i : Instr) (s : State)
  /-- `rst` pulsed. -/
  | reset (delivered : Nat) (s : State)
deriving DecidableEq, Repr

/-- Takes the host's next move: a request is decoded from its ports, a pseudo-operation is issued as such. -/
def takeMove (s : State) : Next :=
  match s.pending with
  | [] => .idle
  | .request r :: rest => .operation (decode r) { s with pending := rest }
  | .transmit m :: rest => .operation (.tx m) { s with pending := rest }
  | .receive xs :: rest => .operation (.rx xs) { s with pending := rest }
  | .reset k :: rest => .reset k { s with pending := rest }

/-- The state in which the word's request is the host's next move (log 5); a word that is no selector is not placed. -/
def State.placeWord (s : State) (nbits w : Nat) : State :=
  match requestOfWord nbits w with
  | .ok r => { s with pending := .request r :: s.pending }
  | .error _ => s

end Sys2Proof.Machine
end

