-- ==== Sys2Proof/Machine/Synthesizer.lean ====
section
/-! DEFINITION. The tone synthesizer: `SYNTH` (`41_tone_synthesizer.md` rules R80 to R87). -/

namespace Sys2Proof.Machine

/-- The first `n` samples of a tone (rules R81, R82). -/
def tone (frequency rate : Q) (n : Nat) : List Amp := (List.range n).map fun i => sinTone frequency i rate

/-- `N = floor(sample_rate · duration)`, the product exact (rule R82). -/
def toneLength (duration rate : Q) : Nat := (rate * duration).floor.toNat

/-- The phase accumulator `φ_0 = 0`, `φ_{i+1} = frac(φ_i + f/R)` of the equivalent DDS form (rule R84). -/
def phase (frequency rate : Q) : Nat → Q
  | 0 => 0
  | i + 1 => frac (phase frequency rate i + frequency / rate)

/-- `burst(b)`: the tone of one symbol, `freq_high` for 1 and `freq_low` for 0, over `L` samples (rules R50, R87). -/
def burst (c : Configuration) (l : Nat) (b : Bit) : List Amp :=
  tone (if b then c.freqHigh else c.freqLow) c.sampleRate l

/-- `SYNTH` (rule R80): a degenerate operand raises `InvalidParameter` and nothing else (rule R83). -/
def execSynth (frequency duration sampleRate : Q) (s : State) : Result :=
  s.whenReady
    (if degenerateMask frequency duration sampleRate = 0 then
      .next (s.deliver ((tone frequency sampleRate (toneLength duration sampleRate)).map .sample))
    else
      .next ((s.deliver []).raise (.invalidParameter (degenerateMask frequency duration sampleRate))))

end Sys2Proof.Machine
end

