-- ==== Sys2Proof/Machine/Demodulator.lean ====
section
/-! DEFINITION. The demodulator: `DEMOD` (`43_demodulator.md` rules R105 to R122). -/

namespace Sys2Proof.Machine

/-- The verdict of one window against the two reference tones (rules R107 to R111). -/
def windowVerdict (g : GivenReals) (c : Configuration) (l : Nat) (w : List Sample) : Verdict :=
  classify g c.thresholdFactor (energy w (burst c l true)) (energy w (burst c l false))

/-- The bit a verdict stands for; an ambiguous window has none (rule R113). -/
def Verdict.bit? : Verdict → Option Bit
  | .one => some true
  | .zero => some false
  | .ambig => none

/-- What one window delivers: its bit, when it has one, then its verdict (rules R113, R114). -/
def verdictEmissions : Verdict → List Emission
  | .one => [.bit true, .verdict .one]
  | .zero => [.bit false, .verdict .zero]
  | .ambig => [.verdict .ambig]

/-- The verdicts of a buffer's windows, in order (rules R106, R113). -/
def verdicts (g : GivenReals) (c : Configuration) (l : Nat) (samples : List Sample) : List Verdict :=
  (tiles l samples).map (windowVerdict g c l)

/-- The bits of a buffer: its verdicts less the ambiguous ones (rule R113). -/
def demodBits (g : GivenReals) (c : Configuration) (l : Nat) (samples : List Sample) : List Bit :=
  (verdicts g c l samples).filterMap Verdict.bit?

/-- `DEMOD` (rule R114), on any real samples (rule R122). -/
def execDemod (samples : List Sample) (s : State) : Result :=
  s.whenReady (.next (s.deliver ((verdicts Config.givenReals s.config s.samplesPerSymbol samples).flatMap verdictEmissions)))

end Sys2Proof.Machine
end

