-- ==== Sys2Proof/Machine/Assembler.lean ====
section
/-! DEFINITION. The bit-to-text assembler: `FEED`, `ARST` and the pseudo-operation `RX` (`44_assembler.md` rules R125 to
R136). -/

namespace Sys2Proof.Machine

/-- The character a group's value decodes to (rules R55, R127). -/
def character (b : Build) (v : Byte) : Byte := if b.charValid v then v else placeholder

/-- What decoding one group delivers: `InvalidByte` when its value maps to no character, then the report
(rules R127, R128, R172). -/
def groupEmissions (b : Build) (v : Byte) (text : List Byte) : List Emission :=
  if b.charValid v then [.report v text] else [.error (.invalidByte v), .report placeholder text]

/-- The `while` loop of rule R126, `n` times round: each removes the 8 oldest bits of `res`, appends their character to
`text` and reports. -/
def feedLoop (b : Build) : Nat → List Bit → List Byte → List Bit × List Byte × List Emission
  | 0, res, text => (res, text, [])
  | n + 1, res, text =>
    let v := val8 (res.take 8)
    let text' := text ++ [character b v]
    let r := feedLoop b n (res.drop 8) text'
    (r.1, r.2.1, groupEmissions b v text' ++ r.2.2)

/-- The loop on the whole of `res`: it runs while 8 bits are there, so `floor(len(res) / 8)` times (rule R129). -/
def assemble (b : Build) (res : List Bit) (text : List Byte) : List Bit × List Byte × List Emission :=
  feedLoop b (res.length / 8) res text

/-- Whether `text` and the characters that `res` completes are within `TEXT_CAP` (rule R135). -/
def fitsText (b : Build) (res : List Bit) (text : List Byte) : Bool :=
  match b.textCap with
  | none => true
  | some cap => text.length + res.length / 8 ≤ cap

/-- The state after `FEED` has appended `bits` to `RES` and run its loop (rule R126). -/
def State.fed (s : State) (bits : List Bit) : State :=
  { s with
    res := (assemble s.build (s.res ++ bits) s.text).1
    text := (assemble s.build (s.res ++ bits) s.text).2.1
    out := (assemble s.build (s.res ++ bits) s.text).2.2 }

/-- `FEED` (rules R125, R126); refused where the text would pass a finite `TEXT_CAP` (rule R135). -/
def execFeed (bits : List Bit) (s : State) : Result :=
  s.whenReady (if fitsText s.build (s.res ++ bits) s.text then .next (s.fed bits) else .refused .textCapacity)

/-- `ARST` (rule R133). -/
def execArst (s : State) : Result := s.whenReady (.next ((s.clearAssembler).deliver []))

/-- `RX` (rules R62, R134): `DEMOD`, then `FEED` of the bits it gave. -/
def execRx (samples : List Sample) (s : State) : Result :=
  thenIssue (execDemod samples s) fun t => execFeed (bitOut t.out) t

end Sys2Proof.Machine
end

