-- ==== Sys2Proof/Machine/Configure.lean ====
section
/-! DEFINITION. The configuration controller: `CFG` (`40_configuration.md` rules R70 to R74). -/

namespace Sys2Proof.Machine

/-- `L = floor(sample_rate · bit_duration)`, the product exact (rule R12). -/
def samplesPerSymbolOf (c : Configuration) : Nat := (c.sampleRate * c.bitDuration).floor.toNat

/-- The configuration loaded (rule R72). -/
def State.loadConfig (s : State) (c : Configuration) : State :=
  { s with config := c, samplesPerSymbol := samplesPerSymbolOf c, mode := .ready, out := [] }

/-- `CFG` (rule R70): a valid configuration is loaded, an invalid one raises `ConfigurationError` with the mask. -/
def execCfg (sampleRate bitDuration freqHigh freqLow thresholdFactor : Q) (s : State) : Result :=
  s.whenUnconfigured
    (if invalidMask ⟨sampleRate, bitDuration, freqHigh, freqLow, thresholdFactor⟩ = 0 then
      .next (s.loadConfig ⟨sampleRate, bitDuration, freqHigh, freqLow, thresholdFactor⟩)
    else
      .next ((s.deliver []).raise
        (.configurationError (invalidMask ⟨sampleRate, bitDuration, freqHigh, freqLow, thresholdFactor⟩))))

end Sys2Proof.Machine
end

