-- ==== Sys2Proof/Machine/Modulator.lean ====
section
/-! DEFINITION. The encoder and modulator: `ENC`, `MOD` and the pseudo-operation `TX` (`42_modulator.md` rules R90 to
R100). -/

namespace Sys2Proof.Machine

/-- The waveform of a bit sequence: the bursts of its bits in order, nothing between them (rules R51, R93, R96). -/
def modulate (c : Configuration) (l : Nat) (bits : List Bit) : List Amp := bits.flatMap (burst c l)

/-- `ENC` (rule R90). -/
def execEnc (message : List Byte) (s : State) : Result :=
  s.whenReady (.next (s.deliver ((encodeMessage s.build.encPolicy message).map .bit)))

/-- `MOD` (rule R93). -/
def execMod (bits : List Bit) (s : State) : Result :=
  s.whenReady (.next (s.deliver ((modulate s.config s.samplesPerSymbol bits).map .sample)))

/-- `TX` (rules R62, R99): `ENC`, then `MOD` of the bits it gave. -/
def execTx (message : List Byte) (s : State) : Result :=
  thenIssue (execEnc message s) fun t => execMod (bitOut t.out) t

end Sys2Proof.Machine
end

