-- ==== Sys2Proof/Machine/Reserved.lean ====
section
/-! DEFINITION. The reserved selector `000` (`30_encoding.md` rule R59). -/

namespace Sys2Proof.Machine

/-- Selector `000` selects no operation: it is not accepted, and "A model refuses code `000` by name" (rule R59). -/
def execReserved (_ : State) : Result := .refused .reservedSelector

end Sys2Proof.Machine
end

