-- ==== Sys2Proof/Machine/Dispatch.lean ====
section
/-! DEFINITION. Every operation's meaning, one arm per row of `opcode_table.json`. -/

namespace Sys2Proof.Machine

def exec (i : Instr) (s : State) : Host.Outcome State Fault Refusal :=
  match i with
  | .cfg sr bd fh fl tf => Sys2Proof.Machine.execCfg sr bd fh fl tf s
  | .synth f d r => Sys2Proof.Machine.execSynth f d r s
  | .enc m => Sys2Proof.Machine.execEnc m s
  | .mod bits => Sys2Proof.Machine.execMod bits s
  | .demod xs => Sys2Proof.Machine.execDemod xs s
  | .feed bits => Sys2Proof.Machine.execFeed bits s
  | .arst => Sys2Proof.Machine.execArst s
  | .tx m => Sys2Proof.Machine.execTx m s
  | .rx xs => Sys2Proof.Machine.execRx xs s
  | .reserved => Sys2Proof.Machine.execReserved s

end Sys2Proof.Machine
end

