-- ==== Sys2Proof/Machine/Step.lean ====
section
/-! DEFINITION. One step: the host's next move, taken whole (`20_memory.md` rule R40: an operation is atomic). -/

namespace Sys2Proof.Machine

/-- No move: nothing happens (rule R179). A request or a pseudo-operation: its meaning. `rst`: hardware reset. -/
def step (s : State) : Host.Outcome State Fault Refusal :=
  match takeMove s with
  | .idle => .next s
  | .operation i t => exec i t
  | .reset k t => .next (t.hardwareReset k)

/-- `s` with the word's request placed where the next step takes it: first among the host's moves (log 5). -/
def State.withFetchWord (s : State) (nbits w : Nat) : State := s.placeWord nbits w

end Sys2Proof.Machine
end

