-- ==== Sys2Proof/Laws/PerInstr.lean ====
section
/-! SUPPORT. The round trip of one operation's encoding, a lemma for each constructor: the request that asks for it carries
its selector code and decodes to it; a pseudo-operation has no request. -/

namespace Sys2Proof.Laws.RoundTrip

def Statement (i : Instr) : Prop :=
  match encode i with
  | some r => selectors i = [r.cmd] ∧ decode r = i
  | none => (selectors i).length = 2

theorem cfg (sr bd fh fl tf : Q) : Statement (.cfg sr bd fh fl tf) := ⟨rfl, rfl⟩
theorem synth (f d r : Q) : Statement (.synth f d r) := ⟨rfl, rfl⟩
theorem enc (m : List Byte) : Statement (.enc m) := ⟨rfl, rfl⟩
theorem mod (bits : List Bit) : Statement (.mod bits) := ⟨rfl, rfl⟩
theorem demod (xs : List Sample) : Statement (.demod xs) := ⟨rfl, rfl⟩
theorem feed (bits : List Bit) : Statement (.feed bits) := ⟨rfl, rfl⟩
theorem arst : Statement .arst := ⟨rfl, rfl⟩
theorem tx (m : List Byte) : Statement (.tx m) := rfl
theorem rx (xs : List Sample) : Statement (.rx xs) := rfl
theorem reserved : Statement .reserved := ⟨rfl, rfl⟩

end Sys2Proof.Laws.RoundTrip
end

