-- ==== Sys2Proof/Machine/Reference.lean ====
section
/-! DEFINITION. The exact real reference of `00_scope.md` rule R6, in which the spec writes its formulas over the reals.
No step runs these: the statements measure what the step does by them. -/

namespace Sys2Proof.Machine

/-- `sin(2π · f · i / R)` (rule R81). -/
noncomputable def realTone (f : Q) (i : Nat) (rate : Q) : ℝ := Real.sin (2 * Real.pi * (f : ℝ) * (i : ℝ) / (rate : ℝ))

/-- The reference tone of a frequency over `l` samples (rule R107). -/
noncomputable def realReference (f rate : Q) (l : Nat) : List ℝ := (List.range l).map fun i => realTone f i rate

/-- `Σ_k |w[k] · ref[k]|` (rule R108). -/
noncomputable def realEnergy (w ref : List ℝ) : ℝ := (List.zipWith (fun a b => |a * b|) w ref).sum

/-- The classification of rule R111 with the threshold of rule R109. -/
noncomputable def realClassify (factor eHigh eLow : ℝ) : Verdict :=
  if eHigh > factor * (eHigh + eLow) ∧ eLow < factor * (eHigh + eLow) then .one
  else if eLow > factor * (eHigh + eLow) ∧ eHigh < factor * (eHigh + eLow) then .zero
  else .ambig

/-- The verdict of a window of real samples under a configuration (rules R107 to R111). -/
noncomputable def realVerdict (c : Configuration) (l : Nat) (w : List ℝ) : Verdict :=
  realClassify c.thresholdFactor (realEnergy w (realReference c.freqHigh c.sampleRate l))
    (realEnergy w (realReference c.freqLow c.sampleRate l))

/-- `A` for `freq_high`, `B` for `freq_low`: `Σ_k ref[k]²` (rule R119). -/
noncomputable def tonePower (f rate : Q) (l : Nat) : ℝ := ((List.range l).map fun k => realTone f k rate ^ 2).sum

/-- `C = Σ_k |ref_high[k] · ref_low[k]|` (rule R119). -/
noncomputable def toneOverlap (c : Configuration) (l : Nat) : ℝ :=
  ((List.range l).map fun k => |realTone c.freqHigh k c.sampleRate * realTone c.freqLow k c.sampleRate|).sum

/-- Clean tones are told apart (rule R119): with `lo = min(tf, 1 - tf)` and `hi = max(tf, 1 - tf)`,
`A + C > 0`, `A / (A + C) > hi`, `B + C > 0` and `C / (B + C) < lo`. -/
def SeparatesTones (c : Configuration) (l : Nat) : Prop :=
  0 < tonePower c.freqHigh c.sampleRate l + toneOverlap c l ∧
  max (c.thresholdFactor : ℝ) (1 - c.thresholdFactor)
    < tonePower c.freqHigh c.sampleRate l / (tonePower c.freqHigh c.sampleRate l + toneOverlap c l) ∧
  0 < tonePower c.freqLow c.sampleRate l + toneOverlap c l ∧
  toneOverlap c l / (tonePower c.freqLow c.sampleRate l + toneOverlap c l)
    < min (c.thresholdFactor : ℝ) (1 - c.thresholdFactor)

end Sys2Proof.Machine
end

