-- ==== Sys2Proof/Safety.lean ====
section
/-! DEFINITION. The terms the statements use: what it is for a request not to be accepted, which operations belong to which
side of the block, and the invariant of its state. -/

namespace Sys2Proof.Machine

/-- The model has no step for the request (`60_exceptions.md` rule R167): stuck or refused, not answered. -/
def NotAccepted (r : Result) : Prop := ∀ t, r ≠ .next t

/-- `CFG`, with whatever operands. -/
def IsCfg (i : Instr) : Prop := ∃ sr bd fh fl tf, i = .cfg sr bd fh fl tf

/-- The operations that change no state (rule R38), and `TX`, which is two of them. -/
def IsPure : Instr → Prop
  | .synth _ _ _ => True
  | .enc _ => True
  | .mod _ => True
  | .demod _ => True
  | .tx _ => True
  | .cfg _ _ _ _ _ => False
  | .feed _ => False
  | .arst => False
  | .rx _ => False
  | .reserved => False

/-- The transmit side of the block (rule R43). -/
def IsTransmitSide : Instr → Prop
  | .enc _ => True
  | .mod _ => True
  | .tx _ => True
  | .synth _ _ _ => False
  | .demod _ => False
  | .cfg _ _ _ _ _ => False
  | .feed _ => False
  | .arst => False
  | .rx _ => False
  | .reserved => False

/-- The receive side of the block (rule R43). -/
def IsReceiveSide : Instr → Prop
  | .demod _ => True
  | .feed _ => True
  | .arst => True
  | .rx _ => True
  | .enc _ => False
  | .mod _ => False
  | .tx _ => False
  | .synth _ _ _ => False
  | .cfg _ _ _ _ _ => False
  | .reserved => False

/-- `n` more bits keep the text within a finite `TEXT_CAP` (rule R135); without one they always do. -/
def State.Fits (s : State) (n : Nat) : Prop :=
  ∀ cap, s.build.textCap = some cap → s.text.length + (s.res.length + n) / 8 ≤ cap

/-- What every reachable state satisfies, and every step keeps: the residual holds 0 to 7 bits (rule R15), in `Ready` the
configuration is valid and `L` is its samples per symbol, at least 1 (rules R12, R71), outside `Ready` the assembler is empty
(rule R14: nothing runs there), the text is within its capacity (rule R135) and holds only characters (rule R127). -/
def State.Inv (s : State) : Prop :=
  s.res.length ≤ 7 ∧
  (s.mode = .ready → invalidMask s.config = 0 ∧ s.samplesPerSymbol = samplesPerSymbolOf s.config
    ∧ 1 ≤ s.samplesPerSymbol) ∧
  (s.mode ≠ .ready → s.res = [] ∧ s.text = []) ∧
  (∀ cap, s.build.textCap = some cap → s.text.length ≤ cap) ∧
  (∀ c ∈ s.text, s.build.charValid c = true ∨ c = placeholder)

/-- Every amplitude on the output ports is a real number of `[-1, 1]` (rule R31), written in its one form (log 23). -/
def State.OutputInRange (s : State) : Prop := ∀ a ∈ smpOut s.out, |ampVal a| ≤ 1 ∧ Amp.wf a = true

end Sys2Proof.Machine
end

