-- ==== Sys2Proof/Certificates/Slice0/Obligations.lean ====
section
/-! DEFINITION. The statements, in the order of the spec's rules: the interface and the encoding, the two resets and the mode,
the configuration, the synthesizer, the encoder and modulator, the demodulator, the assembler, the errors, and the rules about
the whole block. -/

open Sys2Proof Sys2Proof.Machine

/-! ## The host's moves and the encoding -/

/-- A step takes the host's next move: a request runs the operation its ports decode to (rules R47, R57), a pseudo-operation
is issued as such (rule R62), `rst` is hardware reset (rule R185), and with no move the block does nothing (rule R179).
The move taken is off the list; that moves are held in the state is the model's choice (log 5). -/
def Obligations.StepRunsTheNextMove : Prop :=
  ∀ (s : State) (rest : List Move),
    (∀ r, s.pending = .request r :: rest → step s = exec (decode r) { s with pending := rest }) ∧
    (∀ m, s.pending = .transmit m :: rest → step s = exec (.tx m) { s with pending := rest }) ∧
    (∀ xs, s.pending = .receive xs :: rest → step s = exec (.rx xs) { s with pending := rest }) ∧
    (∀ k, s.pending = .reset k :: rest → step s = .next (({ s with pending := rest } : State).hardwareReset k)) ∧
    (s.pending = [] → step s = .next s)

/-- A few selector words of rule R58 and the opcode table, and two that are no selector. That the operand ports carry zeros
and empty sequences is the model's choice (log 15). -/
def Obligations.SelectorWordsDecode : Prop :=
  decodeTableWord 8 0x1 = some (.cfg 0 0 0 0 0) ∧ decodeTableWord 8 0x2 = some (.synth 0 0 0) ∧
  decodeTableWord 8 0x3 = some (.enc []) ∧ decodeTableWord 8 0x4 = some (.mod []) ∧
  decodeTableWord 8 0x5 = some (.demod []) ∧ decodeTableWord 8 0x6 = some (.feed []) ∧
  decodeTableWord 8 0x7 = some .arst ∧ decodeTableWord 8 0x0 = some .reserved ∧
  decodeTableWord 8 0x9 = none ∧ decodeTableWord 2 0x1 = none

/-- Rule R58: which operation each code selects, with the operands of its format. -/
def Obligations.EachCodeSelectsItsOperation : Prop :=
  ∀ r : Request,
    (r.cmd = 0b000#3 → decode r = .reserved) ∧
    (r.cmd = 0b001#3 → decode r
      = .cfg r.cfgSampleRate r.cfgBitDuration r.cfgFreqHigh r.cfgFreqLow r.cfgThresholdFactor) ∧
    (r.cmd = 0b010#3 → decode r = .synth r.synFrequency r.synDuration r.synSampleRate) ∧
    (r.cmd = 0b011#3 → decode r = .enc r.byteIn) ∧
    (r.cmd = 0b100#3 → decode r = .mod r.bitIn) ∧
    (r.cmd = 0b101#3 → decode r = .demod r.smpIn) ∧
    (r.cmd = 0b110#3 → decode r = .feed r.bitIn) ∧
    (r.cmd = 0b111#3 → decode r = .arst)

/-- Decode and encode agree, with every operand at every value: the request that asks for an operation decodes to it and
carries its one code; exactly the two pseudo-operations have no request; every request asks for what the request with the
same code and idle other ports asks for; and no two operations share a request. -/
def Obligations.EncodeDecodeAgree : Prop :=
  (∀ i r, encode i = some r → decode r = i ∧ selectors i = [r.cmd]) ∧
  (∀ i, encode i = none ↔ (∃ m, i = .tx m) ∨ ∃ xs, i = .rx xs) ∧
  (∀ r, ∃ r', encode (decode r) = some r' ∧ r'.cmd = r.cmd ∧ decode r' = decode r) ∧
  (∀ i j r, encode i = some r → encode j = some r → i = j)

/-- Rule R59: code `000` is refused by name, with no next state, hence no state change, output or report; the seven other
codes are assigned. -/
def Obligations.ReservedSelectorIsRefused : Prop :=
  (∀ (r : Request) (s : State), r.cmd = 0b000#3 →
    decode r = .reserved ∧ exec (decode r) s = .refused .reservedSelector) ∧
  ∀ r : Request, r.cmd ≠ 0b000#3 → decode r ≠ .reserved

/-- The codes a verdict (rule R63) and `MODE` (rule R64) are carried by, the code neither produces, and what each verdict goes with. -/
def Obligations.StatusCodes : Prop :=
  Verdict.code .zero = 0b00#2 ∧ Verdict.code .one = 0b01#2 ∧ Verdict.code .ambig = 0b10#2 ∧
  Mode.code .unconfigured = 0b00#2 ∧ Mode.code .ready = 0b01#2 ∧ Mode.code .failed = 0b10#2 ∧
  (∀ v : Verdict, Verdict.code v ≠ 0b11#2) ∧ (∀ m : Mode, Mode.code m ≠ 0b11#2) ∧
  ∀ v : Verdict, (v = .zero ↔ bitOut (verdictEmissions v) = [false]) ∧ (v = .one ↔ bitOut (verdictEmissions v) = [true]) ∧
    (v = .ambig ↔ bitOut (verdictEmissions v) = [])

/-! ## Reset and mode -/

/-- The values rule R22 gives: what the reset state holds, and that a read of `CONFIG` and `L` yields no value. -/
def Obligations.ResetStateHoldsTheResetValues : Prop :=
  State.reset.mode = .unconfigured ∧ State.reset.res = [] ∧ State.reset.text = [] ∧
  State.reset.readConfig = none ∧ State.reset.readL = none ∧ State.reset.build.encPolicy = .fixed8 ∧
  State.reset.build.textCap = none ∧ ∀ v : Byte, State.reset.build.charValid v = true

/-- Rule R185: what hardware reset does; that after it exactly `CFG` is accepted; that it is the only way out of `Failed`; and
that it is the only way to a new configuration. -/
def Obligations.HardwareResetClearsTheBlock : Prop :=
  (∀ (s : State) (k : Nat),
    (s.hardwareReset k).mode = .unconfigured ∧ (s.hardwareReset k).res = [] ∧ (s.hardwareReset k).text = [] ∧
    (s.hardwareReset k).readConfig = none ∧ (s.hardwareReset k).readL = none ∧
    (∀ i, ¬ IsCfg i → NotAccepted (exec i (s.hardwareReset k))) ∧
    ∀ sr bd fh fl tf, ∃ t, exec (.cfg sr bd fh fl tf) (s.hardwareReset k) = .next t) ∧
  (∀ s t : State, step s = .next t → s.mode = .failed → t.mode ≠ .failed → ∃ k rest, s.pending = .reset k :: rest) ∧
  ∀ s t : State, step s = .next t → s.readConfig ≠ none → t.readConfig ≠ s.readConfig →
    ∃ k rest, s.pending = .reset k :: rest

/-- Rule R187: a reset that arrives while an operation's result is being delivered, after `k` elements of it. Whatever the
operation did, what is left is the first `k` elements and the state of rule R185; nothing is reported. -/
def Obligations.ResetCutsTheResultShort : Prop :=
  ∀ (i : Instr) (s t : State) (k : Nat) (rest : List Move), s.pending = .reset k :: rest → exec i s = .next t →
    ∃ u, step t = .next u ∧ u.out = t.out.take k ∧ u.mode = .unconfigured ∧ u.res = [] ∧ u.text = [] ∧
      u.readConfig = none ∧ u.readL = none ∧ u.pending = rest ∧ u.build = s.build

/-- Rule R14: the six rows of the transition table, and that nothing else changes `MODE`. -/
def Obligations.ModeChangesOnlyByTheTable : Prop :=
  (∀ (s : State) (k : Nat), (s.hardwareReset k).mode = .unconfigured) ∧
  (∀ (s : State) (sr bd fh fl tf : Q), s.mode = .unconfigured →
    (invalidMask ⟨sr, bd, fh, fl, tf⟩ = 0 → ∃ t, exec (.cfg sr bd fh fl tf) s = .next t ∧ t.mode = .ready) ∧
    (invalidMask ⟨sr, bd, fh, fl, tf⟩ ≠ 0 → ∃ t, exec (.cfg sr bd fh fl tf) s = .next t ∧ t.mode = .failed)) ∧
  (∀ (s : State) (i : Instr), s.mode ≠ .unconfigured → IsCfg i → NotAccepted (exec i s)) ∧
  (∀ (s : State) (i : Instr), s.mode ≠ .ready → ¬ IsCfg i → NotAccepted (exec i s)) ∧
  (∀ (s t : State) (i : Instr), s.mode = .ready → exec i s = .next t → t.mode = .ready) ∧
  ∀ s t : State, step s = .next t → t.mode ≠ s.mode →
    (∃ k rest, s.pending = .reset k :: rest ∧ t.mode = .unconfigured) ∨
    (∃ r rest, s.pending = .request r :: rest ∧ IsCfg (decode r) ∧ s.mode = .unconfigured ∧ t.mode ≠ .unconfigured)

/-- Rule R22's clause that no operation reads `CONFIG` or `L` before a successful `CFG`: outside `Ready`, what an operation
answers does not depend on what the fields hold. -/
def Obligations.UnloadedConfigurationIsNotRead : Prop :=
  ∀ (i : Instr) (s : State) (c : Configuration) (l : Nat), s.mode ≠ .ready →
    (exec i { s with config := c, samplesPerSymbol := l } = exec i s) ∨
    ∃ t, exec i s = .next t ∧
      exec i { s with config := c, samplesPerSymbol := l } = .next { t with config := c, samplesPerSymbol := l }

/-! ## Configuration -/

/-- Rule R71: the six clauses, each with its mask bit, clause 5 tested only when clauses 0 and 1 hold; and why clause 4, which the
rule derives: outside its range no window can be classified. -/
def Obligations.InvalidMaskNamesTheFailingClauses : Prop :=
  (∀ c : Configuration,
    ((invalidMask c).getLsbD 0 = true ↔ ¬ 0 < c.sampleRate) ∧
    ((invalidMask c).getLsbD 1 = true ↔ ¬ 0 < c.bitDuration) ∧
    ((invalidMask c).getLsbD 2 = true ↔ ¬ 0 < c.freqHigh) ∧
    ((invalidMask c).getLsbD 3 = true ↔ ¬ 0 < c.freqLow) ∧
    ((invalidMask c).getLsbD 4 = true ↔ ¬ (0 < c.thresholdFactor ∧ c.thresholdFactor < 1)) ∧
    ((invalidMask c).getLsbD 5 = true ↔
      0 < c.sampleRate ∧ 0 < c.bitDuration ∧ ¬ 1 ≤ ⌊c.sampleRate * c.bitDuration⌋) ∧
    (invalidMask c = 0 ↔
      0 < c.sampleRate ∧ 0 < c.bitDuration ∧ 0 < c.freqHigh ∧ 0 < c.freqLow ∧
      (0 < c.thresholdFactor ∧ c.thresholdFactor < 1) ∧ 1 ≤ ⌊c.sampleRate * c.bitDuration⌋)) ∧
  ∀ factor eHigh eLow : ℝ, 0 ≤ eHigh → 0 ≤ eLow → (factor ≤ 0 ∨ 1 ≤ factor) → realClassify factor eHigh eLow = .ambig

/-- Rule R72: the effect of a valid `CFG`, and that from then on every other operation is accepted. Only `FEED`, past a finite
`TEXT_CAP` if the build has one (rule R135), and `RX`, whose refusal there is the model's choice (log 14), can be refused. -/
def Obligations.ValidCfgLoadsTheConfiguration : Prop :=
  ∀ (s : State) (sr bd fh fl tf : Q), s.mode = .unconfigured → invalidMask ⟨sr, bd, fh, fl, tf⟩ = 0 →
    ∃ t, exec (.cfg sr bd fh fl tf) s = .next t ∧
      t = { s with config := ⟨sr, bd, fh, fl, tf⟩, samplesPerSymbol := ⌊sr * bd⌋.toNat, mode := .ready, out := [] } ∧
      ∀ i, ¬ IsCfg i → i ≠ .reserved → (∃ u, exec i t = .next u) ∨
        ((∃ bits, i = .feed bits) ∨ ∃ xs, i = .rx xs) ∧ exec i t = .refused .textCapacity ∧ s.build.textCap ≠ none

/-- Rule R73: the effect of an invalid `CFG`: `Failed`, one report with the mask of all failing clauses, `CONFIG` and `L` still
without a value; and in `Failed` no operation is accepted. -/
def Obligations.InvalidCfgFailsTheBlock : Prop :=
  ∀ (s : State) (sr bd fh fl tf : Q), s.mode = .unconfigured → invalidMask ⟨sr, bd, fh, fl, tf⟩ ≠ 0 →
    ∃ t, exec (.cfg sr bd fh fl tf) s = .next t ∧
      t = { s with mode := .failed, out := [.error (.configurationError (invalidMask ⟨sr, bd, fh, fl, tf⟩))] } ∧
      t.readConfig = none ∧ t.readL = none ∧ ∀ i, NotAccepted (exec i t)

/-- Rule R74: `CFG` is not accepted in `Ready` or `Failed`: it is stuck, so no state changes and nothing is reported. -/
def Obligations.CfgIsNotAcceptedTwice : Prop :=
  ∀ (s : State) (sr bd fh fl tf : Q), s.mode ≠ .unconfigured →
    exec (.cfg sr bd fh fl tf) s = .fault (.configurationFixed s.mode)

/-- Rule R11: only a successful `CFG` writes `CONFIG`, it then stays until hardware reset, and what `CFG` accepted is what is
read back. -/
def Obligations.ConfigurationStaysAsLoaded : Prop :=
  (∀ (i : Instr) (s t : State), exec i s = .next t → t.readConfig ≠ s.readConfig →
    ∃ sr bd fh fl tf, i = .cfg sr bd fh fl tf ∧ invalidMask ⟨sr, bd, fh, fl, tf⟩ = 0 ∧
      t.readConfig = some ⟨sr, bd, fh, fl, tf⟩ ∧ t.readL = some ⌊sr * bd⌋.toNat) ∧
  ∀ (s t : State) (c : Configuration), step s = .next t → s.readConfig = some c →
    t.readConfig = some c ∧ t.readL = s.readL ∨ ∃ k rest, s.pending = .reset k :: rest

/-! ## Tone synthesizer -/

/-- Rules R81 and R82: `SYNTH` on positive operands delivers `floor(sample_rate · duration)` samples, sample `i` being the real
number `sin(2π · f · (i / R))`, and changes nothing else. -/
def Obligations.SynthDeliversTheSampledSine : Prop :=
  ∀ (s : State) (f d r : Q), s.mode = .ready → 0 < f → 0 < d → 0 < r →
    ∃ xs : List Amp, exec (.synth f d r) s = .next { s with out := xs.map .sample } ∧
      xs.length = ⌊r * d⌋.toNat ∧
      ∀ (i : Nat) (h : i < xs.length), ampVal xs[i] = Real.sin (2 * Real.pi * (f : ℝ) * ((i : ℝ) / (r : ℝ)))

/-- Rule R83: a degenerate operand: no output, no state change, one report with a mask bit for each cause; and the next
operation is accepted as before. -/
def Obligations.SynthRejectsDegenerateOperands : Prop :=
  ∀ (s : State) (f d r : Q), s.mode = .ready → (f ≤ 0 ∨ d ≤ 0 ∨ r ≤ 0) →
    ∃ (m : BitVec 3) (t : State), exec (.synth f d r) s = .next t ∧ t = { s with out := [.error (.invalidParameter m)] } ∧
      (m.getLsbD 0 = true ↔ f ≤ 0) ∧ (m.getLsbD 1 = true ↔ d ≤ 0) ∧ (m.getLsbD 2 = true ↔ r ≤ 0) ∧
      ∀ i, exec i t = exec i s

/-- Rule R85: the result depends on the three operands alone, and nothing the block keeps is read or written. -/
def Obligations.SynthIsPure : Prop :=
  ∀ f d r : Q, ∃ es : List Emission, ∀ s : State, s.mode = .ready → exec (.synth f d r) s = .next { s with out := es }

/-- Rule R84: the phase accumulator `φ_0 = 0`, `φ_{i+1} = frac(φ_i + f/R)` stands at `frac(f·i/R)`, and its sine is sample `i`, as
a real number; that it is the same data too rests on the model's one form of an amplitude (log 23). -/
def Obligations.PhaseAccumulatorGivesTheTone : Prop :=
  ∀ (f r : Q) (i : Nat),
    phase f r i = Int.fract (f * i / r) ∧
    Real.sin (2 * Real.pi * (phase f r i : ℝ)) = Real.sin (2 * Real.pi * (f : ℝ) * (i : ℝ) / (r : ℝ)) ∧
    ampSine 1 (phase f r i) = sinTone f i r

/-- Rule R86, (a) to (e), for the samples the block delivers: the first is zero, all lie in `[-1, 1]`, `f + R` aliases to `f` and
`R - f` to the negated tone, a tone at half the rate is all zeros, and where `f · N / R` is whole the tone repeats after `N`
samples. The rule speaks of real values; that equal samples are equal as data, and a zero sample the empty sum, is the model's
one form of an amplitude (log 23). -/
def Obligations.ToneProperties : Prop :=
  ∀ (f r : Q) (i : Nat),
    sinTone f 0 r = [] ∧
    (-1 ≤ ampVal (sinTone f i r) ∧ ampVal (sinTone f i r) ≤ 1) ∧
    (r ≠ 0 → sinTone (f + r) i r = sinTone f i r) ∧
    (r ≠ 0 → ampVal (sinTone (r - f) i r) = -ampVal (sinTone f i r)) ∧
    (r ≠ 0 → sinTone (r / 2) i r = []) ∧
    ∀ (n : Nat) (z : ℤ), f * n / r = z → sinTone f (i + n) r = sinTone f i r

/-- Samples of two tones that are equal as real numbers are equal as data (log 23). -/
def Obligations.EqualSamplesAreEqualData : Prop :=
  ∀ (f g r q : Q) (i j : Nat),
    Real.sin (2 * Real.pi * (f : ℝ) * (i : ℝ) / (r : ℝ)) = Real.sin (2 * Real.pi * (g : ℝ) * (j : ℝ) / (q : ℝ)) →
    sinTone f i r = sinTone g j q

/-- Rule R87: in every state that satisfies the invariant, `SYNTH` with the configuration's own values never meets a degenerate
input and delivers exactly the `L` samples of the burst. -/
def Obligations.BurstsAreSynthesizedTones : Prop :=
  ∀ (s : State) (b : Bit), s.Inv → s.mode = .ready →
    exec (.synth (if b then s.config.freqHigh else s.config.freqLow) s.config.bitDuration s.config.sampleRate) s
      = .next { s with out := (burst s.config s.samplesPerSymbol b).map .sample } ∧
    (burst s.config s.samplesPerSymbol b).length = s.samplesPerSymbol ∧ 1 ≤ s.samplesPerSymbol

/-! ## Encoder and modulator -/

/-- Rule R33: the first bit of a byte is its most significant, in both directions, and the two maps are inverse. -/
def Obligations.BytesAreMostSignificantBitFirst : Prop :=
  (∀ v : Byte, (byteBits v).length = 8 ∧ (∀ k : Fin 8, (byteBits v)[k.val]? = some (v.getLsbD (7 - k.val))) ∧
    val8 (byteBits v) = v) ∧
  ∀ g : List Bit, g.length = 8 →
    (val8 g).toNat = ∑ k ∈ Finset.range 8, (g.getD k false).toNat * 2 ^ (7 - k) ∧ byteBits (val8 g) = g

/-- Rule R52: under `FIXED8` a message becomes the bits of its bytes in message order, `8 · B` of them, bit `k` of byte `j` standing
at `8j + 7 - k`; the empty message becomes no bits. -/
def Obligations.Fixed8SendsEveryByteWhole : Prop :=
  ∀ (s : State) (m : List Byte), s.mode = .ready → s.build.encPolicy = .fixed8 →
    ∃ bits : List Bit, exec (.enc m) s = .next { s with out := bits.map .bit } ∧ bits.length = 8 * m.length ∧
      (∀ (j : Nat) (hj : j < m.length) (k : Nat), k < 8 → bits[8 * j + (7 - k)]? = some (m[j].getLsbD k)) ∧
      (m = [] → bits = []) ∧
      (m = [0x48#8, 0x69#8] → bits = [false, true, false, false, true, false, false, false,
        false, true, true, false, true, false, false, true])

/-- Rule R53: under `ELIDE` a message of value `V > 0` becomes the numeral of `V` with no leading zero, which is the `FIXED8` result
less its leading zeros; one of value 0 becomes the one bit 0. -/
def Obligations.ElideSendsTheNumeral : Prop :=
  ∀ (s : State) (m : List Byte), s.mode = .ready → s.build.encPolicy = .elide →
    ∃ bits : List Bit, exec (.enc m) s = .next { s with out := bits.map .bit } ∧
      (let v := ∑ k ∈ Finset.range m.length, (m.getD k 0).toNat * 256 ^ (m.length - 1 - k)
       (v = 0 → bits = [false]) ∧
       (0 < v → bits.head? = some true ∧ 2 ^ (bits.length - 1) ≤ v ∧ v < 2 ^ bits.length ∧
         (∑ k ∈ Finset.range bits.length, (bits.getD k false).toNat * 2 ^ (bits.length - 1 - k)) = v ∧
         bits = (m.flatMap byteBits).dropWhile (fun b => !b)))

/-- Rule R54: the policy is the build's, `FIXED8` by default, and the two give the same bits exactly when the message is not empty and
its first bit is 1; so never for a message of codes below 128. For the empty message this rests on `ELIDE` giving the one bit 0 for the value 0 (log 16). -/
def Obligations.PoliciesAgreeOnlyAboveHalf : Prop :=
  (∀ (s : State) (m : List Byte), s.mode = .ready →
    exec (.enc m) s = .next { s with out := (encodeMessage s.build.encPolicy m).map .bit }) ∧
  Build.default.encPolicy = .fixed8 ∧
  (∀ m : List Byte, encodeMessage .fixed8 m = encodeMessage .elide m ↔ ∃ b rest, m = b :: rest ∧ b.getLsbD 7 = true) ∧
  ∀ m : List Byte, (∀ b ∈ m, b.toNat < 128) → encodeMessage .fixed8 m ≠ encodeMessage .elide m

/-- Rule R91: how many bits each policy gives; that a message of value 0 gives one bit under `ELIDE` is presumed (log 16). -/
def Obligations.EncodedLengths : Prop :=
  ∀ m : List Byte,
    (encodeMessage .fixed8 m).length = 8 * m.length ∧
    (m ≠ [] → 1 ≤ (encodeMessage .elide m).length ∧ (encodeMessage .elide m).length ≤ 8 * m.length) ∧
    ((∀ b ∈ m, b = 0#8) → (encodeMessage .elide m).length = 1) ∧
    ∀ b rest, m = b :: rest → b.getLsbD 7 = false → (encodeMessage .elide m).length < 8 * m.length

/-- Rules R93 and R94: `MOD` delivers `len(bits) · L` samples and nothing else; sample `n·L + i` is the sine of the frequency of bit `n`
at index `i`, and depends on that bit and that index alone. -/
def Obligations.ModIsSampleExact : Prop :=
  ∀ (s : State) (bits : List Bit), s.mode = .ready →
    ∃ xs : List Amp, exec (.mod bits) s = .next { s with out := xs.map .sample } ∧
      xs.length = bits.length * s.samplesPerSymbol ∧
      ∀ (n i : Nat) (hn : n < bits.length), i < s.samplesPerSymbol →
        ∀ h : n * s.samplesPerSymbol + i < xs.length,
          xs[n * s.samplesPerSymbol + i] = (burst s.config s.samplesPerSymbol bits[n]).getD i [] ∧
          ampVal xs[n * s.samplesPerSymbol + i]
            = Real.sin (2 * Real.pi * ((if bits[n] then s.config.freqHigh else s.config.freqLow : Q) : ℝ) * (i : ℝ)
                / (s.config.sampleRate : ℝ))

/-- Rules R95 and R96: burst `n` is the slice `[n·L, (n+1)·L)` of the output, whatever the bits beside it: nothing is inserted,
dropped or smoothed at a joint. -/
def Obligations.BurstsJoinWithoutGap : Prop :=
  ∀ (s t : State) (bits : List Bit) (n : Nat) (hn : n < bits.length), exec (.mod bits) s = .next t →
    ((smpOut t.out).drop (n * s.samplesPerSymbol)).take s.samplesPerSymbol = burst s.config s.samplesPerSymbol bits[n] ∧
    (smpOut t.out).length = bits.length * s.samplesPerSymbol

/-- Rule R97: every sample `MOD` delivers lies in `[-1, 1]` and the first sample of every burst is 0. The rule speaks of the real
value 0; that a zero sample is the empty sum as data is the model's one form of an amplitude (log 23). -/
def Obligations.ModAmplitudes : Prop :=
  ∀ (s t : State) (bits : List Bit), exec (.mod bits) s = .next t →
    (∀ a ∈ smpOut t.out, -1 ≤ ampVal a ∧ ampVal a ≤ 1) ∧
    ∀ n : Nat, n < bits.length → 1 ≤ s.samplesPerSymbol →
      (smpOut t.out)[n * s.samplesPerSymbol]? = some []

/-- Rule R99: `TX` is `ENC` and then `MOD` of the bits it gave; under `FIXED8` it delivers `8 · len(m) · L` samples. That both
results are delivered, in one step, is the model's choice (log 9). -/
def Obligations.TxIsEncThenMod : Prop :=
  ∀ (s : State) (m : List Byte), s.mode = .ready →
    ∃ t u v : State, exec (.enc m) s = .next t ∧ exec (.mod (bitOut t.out)) t = .next u ∧
      exec (.tx m) s = .next v ∧ v = { u with out := t.out ++ u.out } ∧ smpOut v.out = smpOut u.out ∧
      v = { s with out := v.out } ∧
      (s.build.encPolicy = .fixed8 → (smpOut v.out).length = 8 * m.length * s.samplesPerSymbol)

/-- Rule R100: `ENC`, `MOD` and `TX` raise nothing and are kept from running only by `MODE`. -/
def Obligations.ModulatorRaisesNothing : Prop :=
  ∀ (s : State) (i : Instr), IsTransmitSide i →
    (s.mode = .ready → ∃ t, exec i s = .next t ∧ errOut t.out = [] ∧ t = { s with out := t.out }) ∧
    (s.mode ≠ .ready → exec i s = .fault (.notReady s.mode))

/-! ## Demodulator -/

/-- Rules R106 to R111 and R114: `DEMOD` delivers, for each window `j < floor(len(samples) / L)` in order, its bit when it has one and
its verdict; the verdict of window `j` is the reference's, in exact real arithmetic, for the slice `[j·L, (j+1)·L)`; nothing else
changes. And rule R122, for every real amplitude: every sequence of real numbers is a buffer, for some choice of the given
amplitudes, and its verdicts are the reference's. That a real is named and left open is the model's choice (log 1). -/
def Obligations.DemodClassifiesEveryWindow : Prop :=
  (∀ (s : State) (xs : List Sample), s.mode = .ready →
    ∃ vs : List Verdict,
      exec (.demod xs) s = .next { s with out := vs.flatMap fun v => match v with
        | .one => [.bit true, .verdict .one]
        | .zero => [.bit false, .verdict .zero]
        | .ambig => [.verdict .ambig] } ∧
      vs = verdicts Config.givenReals s.config s.samplesPerSymbol xs ∧
      vs.length = xs.length / s.samplesPerSymbol ∧
      ∀ (j : Nat) (h : j < vs.length),
        vs[j] = realVerdict s.config s.samplesPerSymbol
          (((xs.drop (j * s.samplesPerSymbol)).take s.samplesPerSymbol).map (Sample.val Config.givenReals))) ∧
  ∀ (c : Configuration) (l : Nat) (w : List ℝ), ∃ (g : GivenReals) (xs : List Sample),
    xs.map (Sample.val g) = w ∧ (verdicts g c l xs).length = w.length / l ∧
    ∀ j : Nat, j < w.length / l →
      (verdicts g c l xs)[j]? = some (realVerdict c l ((w.drop (j * l)).take l))

/-- Rule R113: one verdict for each window, and the bits are the verdicts less the ambiguous ones. -/
def Obligations.BitsAreTheVerdictsLessTheAmbiguous : Prop :=
  ∀ (s t : State) (xs : List Sample), exec (.demod xs) s = .next t →
    (verOut t.out).length = xs.length / s.samplesPerSymbol ∧
    bitOut t.out = (verOut t.out).filterMap fun v => match v with
      | .one => some true
      | .zero => some false
      | .ambig => none

/-- Rule R115: at most one bit for each window, exactly one when no window is ambiguous; a remainder shorter than a window gives none. -/
def Obligations.DemodResultLength : Prop :=
  ∀ (s t : State) (xs : List Sample), exec (.demod xs) s = .next t →
    (bitOut t.out).length ≤ xs.length / s.samplesPerSymbol ∧
    ((bitOut t.out).length = xs.length / s.samplesPerSymbol ↔ Verdict.ambig ∉ verOut t.out) ∧
    ∀ k r : Nat, xs.length = k * s.samplesPerSymbol + r → r < s.samplesPerSymbol → (verOut t.out).length = k

/-- Rule R112: the two conditions exclude each other, so a window is skipped exactly when neither holds. -/
def Obligations.ConditionsExcludeEachOther : Prop :=
  ∀ factor eHigh eLow : ℝ,
    let t := factor * (eHigh + eLow)
    ¬ ((eHigh > t ∧ eLow < t) ∧ (eLow > t ∧ eHigh < t)) ∧
    (realClassify factor eHigh eLow = .ambig ↔ ¬ (eHigh > t ∧ eLow < t) ∧ ¬ (eLow > t ∧ eHigh < t))

/-- Rule R116: the classification as one ratio. -/
def Obligations.VerdictIsARatio : Prop :=
  ∀ factor eHigh eLow : ℝ, 0 < factor → factor < 1 → 0 ≤ eHigh → 0 ≤ eLow →
    (eHigh + eLow = 0 → realClassify factor eHigh eLow = .ambig) ∧
    (0 < eHigh + eLow →
      (realClassify factor eHigh eLow = .one ↔ max factor (1 - factor) < eHigh / (eHigh + eLow)) ∧
      (realClassify factor eHigh eLow = .zero ↔ eHigh / (eHigh + eLow) < min factor (1 - factor)) ∧
      (realClassify factor eHigh eLow = .ambig ↔
        min factor (1 - factor) ≤ eHigh / (eHigh + eLow) ∧ eHigh / (eHigh + eLow) ≤ max factor (1 - factor)))

/-- Rule R117, (a) to (d), for the verdicts the block gives: a gain other than zero changes none, an all-zero window and one of equal
energies are ambiguous, and a sample where both references are zero, such as sample 0, counts for nothing. All for real samples,
whatever reals the given ones are. -/
def Obligations.VerdictInvariances : Prop :=
  ∀ (g : GivenReals) (c : Configuration) (l : Nat),
    (∀ (v w : List Sample) (gain : ℝ), gain ≠ 0 → v.map (Sample.val g) = w.map (fun a => gain * a.val g) →
      windowVerdict g c l v = windowVerdict g c l w) ∧
    (∀ w : List Sample, (∀ a ∈ w, a.val g = 0) → windowVerdict g c l w = .ambig) ∧
    (∀ w : List Sample,
      realEnergy (w.map (Sample.val g)) (realReference c.freqHigh c.sampleRate l)
        = realEnergy (w.map (Sample.val g)) (realReference c.freqLow c.sampleRate l) → windowVerdict g c l w = .ambig) ∧
    (∀ (w : List Sample) (k : Nat) (a : Sample),
      realTone c.freqHigh k c.sampleRate = 0 → realTone c.freqLow k c.sampleRate = 0 →
      windowVerdict g c l (w.set k a) = windowVerdict g c l w) ∧
    realTone c.freqHigh 0 c.sampleRate = 0 ∧ realTone c.freqLow 0 c.sampleRate = 0

/-- Rules R118 and R119: with one configuration at both ends, demodulating what was modulated gives the bits back, for every bit
sequence, exactly when the configuration separates clean tones. -/
def Obligations.ModemRoundTrip : Prop :=
  ∀ s r : State, s.mode = .ready → r.mode = .ready → r.config = s.config → r.samplesPerSymbol = s.samplesPerSymbol →
    ((∀ bits : List Bit, ∃ t u : State, exec (.mod bits) s = .next t ∧ exec (.demod ((smpOut t.out).map .exact)) r = .next u ∧
        bitOut u.out = bits) ↔ SeparatesTones s.config s.samplesPerSymbol)

/-- Rule R120: a buffer that ends on a window boundary may be demodulated apart from what follows it; and a remainder shorter than a
window influences nothing (rule R106). -/
def Obligations.WindowsTileTheBuffer : Prop :=
  ∀ (s t u v : State) (xs ys : List Sample), 1 ≤ s.samplesPerSymbol → s.samplesPerSymbol ∣ xs.length →
    exec (.demod xs) s = .next t → exec (.demod ys) s = .next u → exec (.demod (xs ++ ys)) s = .next v →
    v.out = t.out ++ u.out ∧ (ys.length < s.samplesPerSymbol → v.out = t.out)

/-- Rule R200's first hazard: with two equal tones every window is ambiguous, so no bit comes out. -/
def Obligations.EqualTonesDecodeNothing : Prop :=
  ∀ (s t : State) (xs : List Sample), s.config.freqHigh = s.config.freqLow → exec (.demod xs) s = .next t →
    bitOut t.out = [] ∧ ∀ v ∈ verOut t.out, v = .ambig

/-! ## Assembler -/

/-- Rules R126 to R128: what the loop of `FEED` leaves and reports, as a whole, where the text stays within its capacity. With `B` the old residual and the operand, group `m` is
bits `8m .. 8m+7` of `B`; each whole group gives its value's character, or `InvalidByte` and then the placeholder, and a report
of the text so far; what is left of `B` stays. -/
def Obligations.FeedDecodesEveryWholeGroup : Prop :=
  ∀ (s : State) (bits : List Bit), s.mode = .ready → s.Fits bits.length →
    ∃ t : State, exec (.feed bits) s = .next t ∧
      (let b := s.res ++ bits
       let value : Nat → Byte := fun m => val8 ((b.drop (8 * m)).take 8)
       let code : Nat → Byte := fun m => if s.build.charValid (value m) then value m else placeholder
       let textAfter : Nat → List Byte := fun m => s.text ++ (List.range m).map code
       t = { s with
         res := b.drop (8 * (b.length / 8))
         text := textAfter (b.length / 8)
         out := (List.range (b.length / 8)).flatMap fun m =>
           (if s.build.charValid (value m) then [] else [.error (.invalidByte (value m))])
             ++ [.report (code m) (textAfter (m + 1))] })

/-- Rule R129: the residual holds 0 to 7 bits, `(a + len(bits)) mod 8` of them, and the text has grown by `floor((a + len(bits)) / 8)`
characters. -/
def Obligations.FeedLengths : Prop :=
  ∀ (s t : State) (bits : List Bit), exec (.feed bits) s = .next t →
    t.res.length ≤ 7 ∧ t.res.length = (s.res.length + bits.length) % 8 ∧
    t.text.length = s.text.length + (s.res.length + bits.length) / 8 ∧ s.text <+: t.text ∧
    (chrOut t.out).length = (s.res.length + bits.length) / 8

/-- Rule R130: a group of fewer than 8 bits waits, undecoded; `ARST` and hardware reset discard it and no character comes of it. -/
def Obligations.PartialGroupWaits : Prop :=
  (∀ (s : State) (bits : List Bit), s.mode = .ready → s.Fits bits.length → s.res.length + bits.length < 8 →
    exec (.feed bits) s = .next { s with res := s.res ++ bits, out := [] }) ∧
  (∀ s t : State, exec .arst s = .next t → t.res = [] ∧ t.text = [] ∧ t.out = []) ∧
  ∀ (s : State) (k : Nat), (s.hardwareReset k).res = [] ∧ (s.hardwareReset k).text = []

/-- Rule R36 and the last rule of `44_assembler.md` section `FEED`: feeding in two parts leaves the same residual and text, and makes
the same reports in the same order, as feeding at once. -/
def Obligations.SplittingAFeedDoesNotMatter : Prop :=
  ∀ (s : State) (as bs : List Bit), s.mode = .ready → s.Fits (as.length + bs.length) →
    ∃ t u v : State, exec (.feed as) s = .next t ∧ exec (.feed bs) t = .next u ∧ exec (.feed (as ++ bs)) s = .next v ∧
      v = { u with out := t.out ++ u.out }

/-- Rule R135: a `FEED` that would pass a finite `TEXT_CAP` is refused, one that would not is accepted and stays within it, and without
one none is refused. -/
def Obligations.TextCapacityIsKept : Prop :=
  ∀ (s : State) (bits : List Bit), s.mode = .ready →
    (∀ cap, s.build.textCap = some cap → cap < s.text.length + (s.res.length + bits.length) / 8 →
      exec (.feed bits) s = .refused .textCapacity) ∧
    (∀ cap, s.build.textCap = some cap → s.text.length + (s.res.length + bits.length) / 8 ≤ cap →
      ∃ t, exec (.feed bits) s = .next t ∧ t.text.length ≤ cap) ∧
    (s.build.textCap = none → ∃ t, exec (.feed bits) s = .next t)

/-- Rule R133: `ARST`, in `Ready` alone, empties the assembler and touches nothing else; twice is once. -/
def Obligations.ArstEmptiesTheAssembler : Prop :=
  ∀ s : State,
    (s.mode = .ready →
      ∃ t, exec .arst s = .next t ∧ t = { s with res := [], text := [], out := [] } ∧ exec .arst t = .next t) ∧
    (s.mode ≠ .ready → NotAccepted (exec .arst s))

/-- Rule R134: `RX` is `DEMOD` and then `FEED` of the bits it gave. That both results are delivered, in one step, is the model's
choice (log 9), and so is that it is refused whole where its `FEED` would pass a finite `TEXT_CAP` (log 14). -/
def Obligations.RxIsDemodThenFeed : Prop :=
  ∀ (s : State) (xs : List Sample), s.mode = .ready →
    ∃ t : State, exec (.demod xs) s = .next t ∧
      (s.Fits (bitOut t.out).length →
        ∃ u v : State, exec (.feed (bitOut t.out)) t = .next u ∧ exec (.rx xs) s = .next v ∧
          v = { u with out := t.out ++ u.out } ∧ chrOut v.out = chrOut u.out ∧
          v = { s with res := u.res, text := u.text, out := v.out }) ∧
      (¬ s.Fits (bitOut t.out).length → exec (.rx xs) s = .refused .textCapacity)

/-- The source's byte round trip (rules R52, R118, R134): under `FIXED8`, every character valid and tones that separate, receiving what
was transmitted from an empty residual appends exactly the message's bytes, one report each, and leaves no residual. -/
def Obligations.ByteRoundTrip : Prop :=
  ∀ (s r : State) (m : List Byte), s.mode = .ready → r.mode = .ready → r.config = s.config →
    r.samplesPerSymbol = s.samplesPerSymbol → SeparatesTones s.config s.samplesPerSymbol →
    s.build.encPolicy = .fixed8 → r.Fits (8 * m.length) → (∀ v, r.build.charValid v = true) → r.res = [] →
    ∃ t u : State, exec (.tx m) s = .next t ∧ exec (.rx ((smpOut t.out).map .exact)) r = .next u ∧
      u.res = [] ∧ u.text = r.text ++ m ∧ errOut u.out = [] ∧
      chrOut u.out = (List.range m.length).map fun k => (m.getD k 0, r.text ++ m.take (k + 1))

/-! ## Errors and acceptance -/

/-- Rule R160: the report of each kind the block raises, the codes of all six kinds, and what raising one does to the state: the
report goes out, and `ConfigurationError` fails the block. The placeholder, which rule R160's effect column names for
`InvalidByte`, is appended by `FEED` (rules R126, R127) and is stated of it (`FeedDecodesEveryWholeGroup`). -/
def Obligations.ErrorReportsAndEffects : Prop :=
  (∀ m : BitVec 6, BlockError.report (.configurationError m) = (1, m.toNat)) ∧
  (∀ m : BitVec 3, BlockError.report (.invalidParameter m) = (2, m.toNat)) ∧
  (∀ v : Byte, BlockError.report (.invalidByte v) = (3, v.toNat)) ∧
  ErrorKind.code .deviceError = 4 ∧ ErrorKind.code .queueOverflow = 5 ∧ ErrorKind.code .transportError = 6 ∧
  ∀ (s : State) (e : BlockError),
    s.raise e = { s with
      mode := if ∃ m, e = .configurationError m then .failed else s.mode
      out := s.out ++ [.error e] }

/-- Rule R171's first clause, with rules R100, R121, R136 and R162: which kind each operation can raise. -/
def Obligations.EachOperationRaisesOneKind : Prop :=
  ∀ (i : Instr) (s t : State), exec i s = .next t → ∀ e ∈ errOut t.out,
    (IsCfg i ∧ ∃ m, e = .configurationError m) ∨
    ((∃ f d r, i = .synth f d r) ∧ ∃ m, e = .invalidParameter m) ∨
    (((∃ bits, i = .feed bits) ∨ ∃ xs, i = .rx xs) ∧ ∃ v, e = .invalidByte v ∧ s.build.charValid v = false)

/-- Rule R169: outside `Ready` every operation but `CFG` is stuck, with no output, report, default result or state change; in `Failed`
`CFG` too. -/
def Obligations.NothingRunsOutsideReady : Prop :=
  ∀ s : State, s.mode ≠ .ready →
    (∀ f d r, exec (.synth f d r) s = .fault (.notReady s.mode)) ∧
    (∀ m, exec (.enc m) s = .fault (.notReady s.mode)) ∧
    (∀ bits, exec (.mod bits) s = .fault (.notReady s.mode)) ∧
    (∀ xs, exec (.demod xs) s = .fault (.notReady s.mode)) ∧
    (∀ bits, exec (.feed bits) s = .fault (.notReady s.mode)) ∧
    exec .arst s = .fault (.notReady s.mode) ∧
    (∀ m, exec (.tx m) s = .fault (.notReady s.mode)) ∧
    (∀ xs, exec (.rx xs) s = .fault (.notReady s.mode)) ∧
    (s.mode = .failed → ∀ sr bd fh fl tf, exec (.cfg sr bd fh fl tf) s = .fault (.configurationFixed .failed))

/-! ## The whole block -/

/-- Rules R17, R21 and R38: what each operation leaves unchanged. `SYNTH`, `ENC`, `MOD`, `DEMOD` and `TX` change nothing but what was
delivered; `FEED`, `RX` and `ARST` write `RES` and `TEXT` besides; `CFG` writes `CONFIG`, `L` and `MODE` besides. The host's further
moves and the parameters are never written. -/
def Obligations.OperationsWriteOnlyTheirRegisters : Prop :=
  ∀ (i : Instr) (s t : State), exec i s = .next t →
    t.pending = s.pending ∧ t.build = s.build ∧
    (IsPure i → t = { s with out := t.out }) ∧
    (¬ IsCfg i → t = { s with res := t.res, text := t.text, out := t.out }) ∧
    (IsCfg i → t = { s with config := t.config, samplesPerSymbol := t.samplesPerSymbol, mode := t.mode, out := t.out })

/-- Rules R38 and R46: after an operation that changes no state, every operation answers as if it had not been issued. -/
def Obligations.PureOperationsLeaveNoTrace : Prop :=
  ∀ (i j : Instr) (s t : State), IsPure i → exec i s = .next t → exec j t = exec j s

/-- Rule R43: the transmit side and the receive side do not disturb each other: each gives the result it would have given alone. -/
def Obligations.SidesDoNotInterfere : Prop :=
  ∀ (i j : Instr) (s t : State), IsTransmitSide i → IsReceiveSide j →
    (exec i s = .next t → exec j t = exec j s) ∧
    (exec j s = .next t → ∀ u, exec i s = .next u → ∃ v, exec i t = .next v ∧ v.out = u.out)

/-- Rules R15 and R16 over one step: only `FEED` (and `RX`, which issues one) and the two resets write `RES` and `TEXT`. The resets
empty both. With `bits` the operand of the `FEED`, or the bits that `RX` has from its `DEMOD`, `TEXT` grows at its end by one
character for every 8 bits of the old residual and `bits`, and `RES` keeps what those characters have not used up. -/
def Obligations.TextOnlyGrowsOrIsEmptied : Prop :=
  ∀ s t : State, step s = .next t →
    (s.pending = [] → t.res = s.res ∧ t.text = s.text) ∧
    (∀ k rest, s.pending = .reset k :: rest → t.res = [] ∧ t.text = []) ∧
    ∀ i u, takeMove s = .operation i u →
      (i = .arst → t.res = [] ∧ t.text = []) ∧
      (i ≠ .arst → (∀ bits, i ≠ .feed bits) → (∀ xs, i ≠ .rx xs) → t.res = s.res ∧ t.text = s.text) ∧
      ∀ bits : List Bit,
        (i = .feed bits ∨ ∃ xs, i = .rx xs ∧ bits = demodBits Config.givenReals s.config s.samplesPerSymbol xs) →
        ∃ new : List Byte, t.text = s.text ++ new ∧ new.length = (s.res.length + bits.length) / 8 ∧
          t.res = (s.res ++ bits).drop (8 * new.length)

/-- The reset state satisfies the invariant. -/
def Obligations.ResetSatisfiesTheInvariant : Prop := State.reset.Inv

/-- The invariant (rules R12, R14, R15, R71, R127, R135) is kept by every step, from every state that satisfies it. -/
def Obligations.EveryStepKeepsTheInvariant : Prop :=
  ∀ s t : State, s.Inv → step s = .next t → t.Inv

/-- Rule R31: every amplitude the block delivers lies in `[-1, 1]`, and is written in its one form (log 23); every step keeps that. -/
def Obligations.EveryStepKeepsOutputInRange : Prop :=
  State.reset.OutputInRange ∧ ∀ s t : State, s.OutputInRange → step s = .next t → t.OutputInRange
end

