-- ==== Sys2Proof/Laws/Amplitude.lean ====
section
/-! SUPPORT. The arithmetic of amplitudes is exact: one lemma per operation of `Machine/Amplitude.lean`, saying what it
does to the real value. -/

namespace Sys2Proof.Machine

open Real

@[simp] theorem ampVal_nil : ampVal [] = 0 := by simp [ampVal]

@[simp] theorem ampVal_cons (t : Term) (a : Amp) :
    ampVal (t :: a) = (t.coeff : ℝ) * sin (2 * π * (t.turns : ℝ)) + ampVal a := by simp [ampVal]

@[simp] theorem ampVal_addTerm (t : Term) (a : Amp) :
    ampVal (addTerm t a) = (t.coeff : ℝ) * sin (2 * π * (t.turns : ℝ)) + ampVal a := by
  induction a with
  | nil =>
    by_cases h : t.coeff = 0 <;> simp [addTerm, h]
  | cons u rest ih =>
    unfold addTerm
    by_cases h1 : t.turns < u.turns
    · by_cases h : t.coeff = 0 <;> simp [h1, h]
    · by_cases h2 : t.turns = u.turns
      · have hc : (t.coeff : ℝ) + (u.coeff : ℝ) = ((t.coeff + u.coeff : ℚ) : ℝ) := by push_cast; ring
        by_cases h : t.coeff + u.coeff = 0
        · have h0 : (t.coeff : ℝ) + (u.coeff : ℝ) = 0 := by rw [hc, h]; simp
          simp only [h2, lt_irrefl, if_false, if_true, h, ampVal_cons]
          linear_combination (-sin (2 * π * (u.turns : ℝ))) * h0
        · simp only [h2, lt_irrefl, if_false, if_true, h, ampVal_cons]
          push_cast
          ring
      · simp only [h1, h2, if_false, ampVal_cons, ih]
        ring

@[simp] theorem ampVal_ampAdd (a b : Amp) : ampVal (ampAdd a b) = ampVal a + ampVal b := by
  unfold ampAdd
  induction a with
  | nil => simp
  | cons t rest ih => simp [ih]; ring

@[simp] theorem ampVal_ampScale (q : Q) (a : Amp) : ampVal (ampScale q a) = (q : ℝ) * ampVal a := by
  unfold ampScale
  by_cases h : q = 0
  · simp [h]
  · simp only [h, if_false]
    induction a with
    | nil => simp
    | cons t rest ih => simp only [List.map_cons, ampVal_cons, ih]; push_cast; ring

theorem sin_quarter : sin (2 * π * ((1/4 : ℚ) : ℝ)) = 1 := by
  rw [show 2 * π * ((1/4 : ℚ) : ℝ) = π / 2 by push_cast; ring, sin_pi_div_two]

@[simp] theorem ampVal_ampOfRat (q : Q) : ampVal (ampOfRat q) = (q : ℝ) := by
  simp only [ampOfRat, ampVal_addTerm, sin_quarter, ampVal_nil]; ring

theorem sin_twelfth : sin (2 * π * ((1/12 : ℚ) : ℝ)) = 1 / 2 := by
  rw [show 2 * π * ((1/12 : ℚ) : ℝ) = π / 6 by push_cast; ring, sin_pi_div_six]

/-- The sine of the phase folded onto the first quarter turn. -/
theorem sin_folded (φ : Q) :
    sin (2 * π * ((foldPhase φ : ℚ) : ℝ)) = sin (2 * π * (φ : ℝ)) := by
  unfold foldPhase
  by_cases h : φ ≤ 1/4
  · rw [if_pos h]
  · rw [if_neg h, show 2 * π * ((1/2 - φ : ℚ) : ℝ) = π - 2 * π * (φ : ℝ) by push_cast; ring, sin_pi_sub]

theorem ampVal_sineHalfTurn (c φ : Q) : ampVal (sineHalfTurn c φ) = (c : ℝ) * sin (2 * π * (φ : ℝ)) := by
  unfold sineHalfTurn
  by_cases h0 : φ = 0
  · simp [h0]
  · by_cases h1 : foldPhase φ = 1/12
    · have hs := sin_folded φ
      rw [h1, sin_twelfth] at hs
      rw [if_neg h0, if_pos h1, ampVal_addTerm, ampVal_nil, sin_quarter, ← hs]
      push_cast; ring
    · rw [if_neg h0, if_neg h1, ampVal_addTerm, ampVal_nil, sin_folded]; ring

theorem sin_frac (x : Q) : sin (2 * π * (frac x : ℝ)) = sin (2 * π * (x : ℝ)) := by
  unfold frac
  rw [show 2 * π * ((x - x.floor : ℚ) : ℝ) = 2 * π * (x : ℝ) - (x.floor : ℤ) * (2 * π) by push_cast; ring]
  exact sin_sub_int_mul_two_pi _ _

@[simp] theorem ampVal_ampSine (c turns : Q) : ampVal (ampSine c turns) = (c : ℝ) * sin (2 * π * (turns : ℝ)) := by
  unfold ampSine
  by_cases h : frac turns < 1/2
  · rw [if_pos h, ampVal_sineHalfTurn, sin_frac]
  · rw [if_neg h, ampVal_sineHalfTurn,
      show 2 * π * ((frac turns - 1/2 : ℚ) : ℝ) = 2 * π * (frac turns : ℝ) - π by push_cast; ring, sin_sub_pi, sin_frac]
    push_cast; ring

@[simp] theorem ampVal_termMul (s t : Term) :
    ampVal (termMul s t) =
      ((s.coeff : ℝ) * sin (2 * π * (s.turns : ℝ))) * ((t.coeff : ℝ) * sin (2 * π * (t.turns : ℝ))) := by
  simp only [termMul, ampVal_ampAdd, ampVal_ampSine]
  rw [show 2 * π * ((s.turns - t.turns + 1/4 : ℚ) : ℝ)
      = (2 * π * (s.turns : ℝ) - 2 * π * (t.turns : ℝ)) + π / 2 by push_cast; ring,
    show 2 * π * ((s.turns + t.turns + 1/4 : ℚ) : ℝ)
      = (2 * π * (s.turns : ℝ) + 2 * π * (t.turns : ℝ)) + π / 2 by push_cast; ring,
    sin_add_pi_div_two, sin_add_pi_div_two, cos_sub, cos_add]
  push_cast; ring

theorem ampVal_mulTerm (s : Term) (b acc : Amp) :
    ampVal (b.foldr (fun t acc => ampAdd (termMul s t) acc) acc)
      = ((s.coeff : ℝ) * sin (2 * π * (s.turns : ℝ))) * ampVal b + ampVal acc := by
  induction b with
  | nil => simp
  | cons t rest ih => simp [ih]; ring

@[simp] theorem ampVal_ampMul (a b : Amp) : ampVal (ampMul a b) = ampVal a * ampVal b := by
  unfold ampMul
  induction a with
  | nil => simp
  | cons s rest ih => rw [List.foldr_cons, ampVal_mulTerm, ih, ampVal_cons]; ring

/-- Rule R81: the sample of a tone is the real sine. -/
theorem ampVal_sinTone (f : Q) (i : Nat) (rate : Q) : ampVal (sinTone f i rate) = realTone f i rate := by
  simp only [sinTone, ampVal_ampSine, realTone]
  push_cast
  rw [one_mul]
  congr 1
  ring

end Sys2Proof.Machine
end

