-- ==== Sys2Proof/Laws/Operands.lean ====
section
/-! SUPPORT. Bits and bytes, numerals and tiles. -/

namespace Sys2Proof.Machine

/-! Tiles. -/

@[simp] theorem length_tiles {α : Type} (n : Nat) (xs : List α) : (tiles n xs).length = xs.length / n := by simp [tiles]

theorem getElem_tiles {α : Type} (n : Nat) (xs : List α) (j : Nat) (h : j < (tiles n xs).length) :
    (tiles n xs)[j] = (xs.drop (j * n)).take n := by simp [tiles]

theorem tiles_map {α β : Type} (n : Nat) (f : α → β) (xs : List α) : tiles n (xs.map f) = (tiles n xs).map (List.map f) := by
  simp [tiles, Function.comp_def]

theorem length_of_mem_tiles {α : Type} {n : Nat} {xs w : List α} (h : w ∈ tiles n xs) : w.length = n := by
  obtain ⟨j, hj, rfl⟩ := List.mem_map.mp h
  have hj := List.mem_range.mp hj
  have h1 : (j + 1) * n ≤ xs.length := (Nat.mul_le_mul_right n hj).trans (Nat.div_mul_le_self _ _)
  rw [Nat.succ_mul] at h1
  simp only [List.length_take, List.length_drop]
  omega

/-- Tiles of a sequence that begins with whole tiles. -/
theorem tiles_append {α : Type} (n : Nat) (hn : 0 < n) (xs ys : List α) (h : n ∣ xs.length) :
    tiles n (xs ++ ys) = tiles n xs ++ tiles n ys := by
  obtain ⟨k, hk⟩ := h
  have hx : xs.length / n = k := by rw [hk, Nat.mul_div_cancel_left _ hn]
  have hxy : (xs ++ ys).length / n = k + ys.length / n := by
    rw [List.length_append, hk, Nat.mul_add_div hn]
  refine List.ext_getElem (by simp only [length_tiles, List.length_append]; rw [← List.length_append, hxy, hx]) fun j h1 h2 => ?_
  rw [getElem_tiles]
  by_cases hj : j < k
  · rw [List.getElem_append_left (by simpa [hx] using hj), getElem_tiles]
    have h3 : (j + 1) * n ≤ xs.length := by rw [hk, Nat.mul_comm n k]; exact Nat.mul_le_mul_right n hj
    rw [Nat.succ_mul] at h3
    rw [List.drop_append_of_le_length (by omega), List.take_append_of_le_length (by rw [List.length_drop]; omega)]
  · rw [List.getElem_append_right (by simpa [hx] using hj), getElem_tiles]
    simp only [length_tiles, hx]
    have h4 : xs.length ≤ j * n := by rw [hk, Nat.mul_comm n k]; exact Nat.mul_le_mul_right n (not_lt.mp hj)
    rw [List.drop_append, List.drop_eq_nil_of_le h4, List.nil_append, hk, Nat.mul_comm n k, Nat.sub_mul]

@[simp] theorem tiles_nil {α : Type} (n : Nat) : tiles n ([] : List α) = [] := by simp [tiles]

theorem tiles_self {α : Type} (n : Nat) (hn : 0 < n) (xs : List α) (h : xs.length = n) : tiles n xs = [xs] := by
  subst h
  simp [tiles, Nat.div_self hn]

/-- A concatenation of whole tiles is cut where it was joined. -/
theorem tiles_flatMap {α β : Type} (n : Nat) (hn : 0 < n) (f : β → List α) (hf : ∀ b, (f b).length = n) (bs : List β) :
    tiles n (bs.flatMap f) = bs.map f := by
  induction bs with
  | nil => simp
  | cons b bs ih =>
    rw [List.flatMap_cons, tiles_append n hn _ _ (by rw [hf]), ih, tiles_self n hn _ (hf b)]
    rfl

/-! Bytes. -/

@[simp] theorem length_byteBits (v : Byte) : (byteBits v).length = 8 := rfl

@[simp] theorem val8_byteBits (v : Byte) : val8 (byteBits v) = v := by revert v; decide +kernel

theorem exists_of_length_eight {g : List Bit} (h : g.length = 8) :
    ∃ a b c d e f x y, g = [a, b, c, d, e, f, x, y] := by
  match g, h with
  | [a, b, c, d, e, f, x, y], _ => exact ⟨a, b, c, d, e, f, x, y, rfl⟩

@[simp] theorem length_encodeFixed8 (m : List Byte) : (encodeFixed8 m).length = 8 * m.length := by
  induction m with
  | nil => rfl
  | cons b m ih => simp only [encodeFixed8, List.flatMap_cons, List.length_append, length_byteBits, List.length_cons] at ih ⊢; omega

/-- The bits of a message, cut in groups of 8, are its bytes. -/
theorem tiles_encodeFixed8 (m : List Byte) : (tiles 8 (encodeFixed8 m)).map val8 = m := by
  rw [encodeFixed8, tiles_flatMap 8 (by decide) byteBits length_byteBits, List.map_map]
  exact (List.map_congr_left fun v _ => val8_byteBits v).trans (List.map_id m)

/-! Numerals. The value of a bit sequence read most significant bit first. -/

/-- The number a bit sequence is the binary numeral of, most significant bit first. -/
def bitsValue (bs : List Bit) : Nat := bs.foldl (fun v b => 2 * v + b.toNat) 0

theorem foldl_bits (bs : List Bit) (a : Nat) :
    bs.foldl (fun v b => 2 * v + b.toNat) a = a * 2 ^ bs.length + bitsValue bs := by
  unfold bitsValue
  induction bs generalizing a with
  | nil => simp
  | cons b bs ih =>
    rw [List.foldl_cons, ih, List.foldl_cons, ih (2 * 0 + b.toNat), List.length_cons, pow_succ]
    ring

theorem bitsValue_append (as bs : List Bit) : bitsValue (as ++ bs) = bitsValue as * 2 ^ bs.length + bitsValue bs := by
  rw [bitsValue, List.foldl_append, foldl_bits]; rfl

@[simp] theorem bitsValue_byteBits (v : Byte) : bitsValue (byteBits v) = v.toNat := by revert v; decide +kernel

theorem messageValue_append (as bs : List Byte) :
    messageValue (as ++ bs) = messageValue as * 256 ^ bs.length + messageValue bs := by
  have key : ∀ (bs : List Byte) (a : Nat),
      bs.foldl (fun v b => 256 * v + b.toNat) a = a * 256 ^ bs.length + messageValue bs := by
    intro bs
    unfold messageValue
    induction bs with
    | nil => simp
    | cons b bs ih =>
      intro a
      rw [List.foldl_cons, ih, List.foldl_cons, ih (256 * 0 + b.toNat), List.length_cons, pow_succ]
      ring
  rw [messageValue, List.foldl_append, key]; rfl

/-- The `FIXED8` bits of a message are a numeral of its value. -/
theorem bitsValue_encodeFixed8 (m : List Byte) : bitsValue (encodeFixed8 m) = messageValue m := by
  induction m with
  | nil => rfl
  | cons b m ih =>
    have h1 : messageValue (b :: m) = b.toNat * 256 ^ m.length + messageValue m := by
      simpa [messageValue] using messageValue_append [b] m
    rw [encodeFixed8, List.flatMap_cons, bitsValue_append, bitsValue_byteBits, h1]
    change _ * 2 ^ (encodeFixed8 m).length + bitsValue (encodeFixed8 m) = _
    rw [ih, length_encodeFixed8, pow_mul]
    norm_num

theorem bitsValue_lt (bs : List Bit) : bitsValue bs < 2 ^ bs.length := by
  induction bs using List.reverseRecOn with
  | nil => simp [bitsValue]
  | append_singleton bs b ih =>
    rw [bitsValue_append, List.length_append, List.length_singleton, pow_succ]
    have : bitsValue [b] ≤ 1 := by cases b <;> decide
    omega

@[simp] theorem length_numeral (v : Nat) : (numeral v).length = Nat.log2 v + 1 := by simp [numeral]

/-- Bit sequences of one length are numerals of different numbers. -/
theorem bitsValue_injective {as bs : List Bit} (hl : as.length = bs.length) (h : bitsValue as = bitsValue bs) : as = bs := by
  induction as using List.reverseRecOn generalizing bs with
  | nil => exact (List.length_eq_zero_iff.mp hl.symm).symm
  | append_singleton as a ih =>
    rcases List.eq_nil_or_concat bs with rfl | ⟨bs, b, rfl⟩
    · simp at hl
    · rw [List.concat_eq_append] at *
      rw [bitsValue_append, bitsValue_append] at h
      simp only [List.length_append, List.length_singleton, Nat.add_right_cancel_iff] at hl
      have ha : bitsValue [a] = a.toNat := by cases a <;> rfl
      have hb : bitsValue [b] = b.toNat := by cases b <;> rfl
      rw [ha, hb, List.length_singleton, List.length_singleton, pow_one] at h
      have h1 := Bool.toNat_lt a
      have h2 := Bool.toNat_lt b
      have h3 : a = b := by cases a <;> cases b <;> simp_all <;> omega
      rw [ih hl (by omega), h3]

theorem bitsValue_testBits (v n : Nat) : bitsValue ((List.range n).reverse.map fun k => v.testBit k) = v % 2 ^ n := by
  induction n with
  | zero => simp [bitsValue, Nat.mod_one]
  | succ n ih =>
    rw [List.range_succ, List.reverse_append, List.map_append, bitsValue_append, ih]
    simp only [List.reverse_singleton, List.map_singleton, List.length_map, List.length_reverse, List.length_range]
    have h1 : v % 2 ^ (n + 1) = 2 ^ n * (v / 2 ^ n % 2) + v % 2 ^ n := by rw [pow_succ, Nat.mod_mul, Nat.add_comm]
    have h2 : bitsValue [v.testBit n] = v / 2 ^ n % 2 := by
      rw [Nat.testBit_eq_decide_div_mod_eq]
      rcases Nat.mod_two_eq_zero_or_one (v / 2 ^ n) with h | h <;> simp [h, bitsValue]
    rw [h1, h2, Nat.mul_comm]

/-- `numeral v` is a numeral of `v`. -/
theorem bitsValue_numeral (v : Nat) : bitsValue (numeral v) = v := by
  rw [numeral, bitsValue_testBits, Nat.mod_eq_of_lt Nat.lt_log2_self]

/-- For `v > 0` the first bit of `numeral v` is 1. -/
theorem head_numeral (v : Nat) (h : v ≠ 0) : (numeral v).head? = some true := by
  rw [numeral, List.range_succ, List.reverse_append]
  simp [Nat.testBit_log2 h]

/-! Sums, and leading zeros. -/

/-- The message's value as the sum of rule R53. -/
theorem sum_eq_messageValue (m : List Byte) :
    ∑ k ∈ Finset.range m.length, (m.getD k 0).toNat * 256 ^ (m.length - 1 - k) = messageValue m := by
  induction m with
  | nil => rfl
  | cons b m ih =>
    have h1 : messageValue (b :: m) = b.toNat * 256 ^ m.length + messageValue m := by
      have := messageValue_append [b] m
      simpa [messageValue] using this
    rw [h1, ← ih, List.length_cons, Finset.sum_range_succ']
    simp only [List.getD_cons_succ, List.getD_cons_zero]
    rw [add_comm]
    congr 1
    refine Finset.sum_congr rfl fun k hk => ?_
    have := Finset.mem_range.mp hk
    congr 2; omega

theorem sum_eq_bitsValue (bs : List Bit) :
    ∑ k ∈ Finset.range bs.length, (bs.getD k false).toNat * 2 ^ (bs.length - 1 - k) = bitsValue bs := by
  induction bs with
  | nil => rfl
  | cons b bs ih =>
    have h1 : bitsValue (b :: bs) = b.toNat * 2 ^ bs.length + bitsValue bs := by
      have := bitsValue_append [b] bs
      simpa [bitsValue] using this
    rw [h1, ← ih, List.length_cons, Finset.sum_range_succ']
    simp only [List.getD_cons_succ, List.getD_cons_zero]
    rw [add_comm]
    congr 1
    refine Finset.sum_congr rfl fun k hk => ?_
    have := Finset.mem_range.mp hk
    congr 2; omega

theorem bitsValue_cons_false (bs : List Bit) : bitsValue (false :: bs) = bitsValue bs := by
  simp [bitsValue]

/-- Leading zeros do not count. -/
theorem bitsValue_dropWhile (bs : List Bit) : bitsValue (bs.dropWhile fun b => !b) = bitsValue bs := by
  induction bs with
  | nil => rfl
  | cons b bs ih => cases b <;> simp [ih, bitsValue_cons_false]

theorem head_dropWhile {bs : List Bit} (h : bitsValue bs ≠ 0) : (bs.dropWhile fun b => !b).head? = some true := by
  induction bs with
  | nil => simp [bitsValue] at h
  | cons b bs ih =>
    cases b
    · rw [bitsValue_cons_false] at h
      simpa [List.dropWhile_cons] using ih h
    · simp

theorem le_bitsValue {bs : List Bit} (h : bs.head? = some true) : 2 ^ (bs.length - 1) ≤ bitsValue bs := by
  cases bs with
  | nil => simp at h
  | cons b bs =>
    simp only [List.head?_cons, Option.some.injEq] at h
    subst h
    have := bitsValue_append [true] bs
    simp only [List.singleton_append] at this
    rw [this]
    simp [bitsValue]

/-- A number has one numeral without leading zeros. -/
theorem numeral_unique {as bs : List Bit} (ha : as.head? = some true) (hb : bs.head? = some true)
    (h : bitsValue as = bitsValue bs) : as = bs := by
  refine bitsValue_injective ?_ h
  have a1 := le_bitsValue ha
  have a2 := bitsValue_lt as
  have b1 := le_bitsValue hb
  have b2 := bitsValue_lt bs
  have la : 1 ≤ as.length := by cases as <;> simp at ha ⊢
  have lb : 1 ≤ bs.length := by cases bs <;> simp at hb ⊢
  rw [h] at a1 a2
  have c1 := (Nat.pow_lt_pow_iff_right (a := 2) (by norm_num)).1 (a1.trans_lt b2)
  have c2 := (Nat.pow_lt_pow_iff_right (a := 2) (by norm_num)).1 (b1.trans_lt a2)
  omega

/-- `ELIDE` is `FIXED8` less its leading zeros (rule R53). -/
theorem encodeElide_eq_dropWhile {m : List Byte} (h : messageValue m ≠ 0) :
    encodeElide m = (encodeFixed8 m).dropWhile fun b => !b := by
  rw [encodeElide, if_neg h]
  exact numeral_unique (head_numeral _ h) (head_dropWhile (by rwa [bitsValue_encodeFixed8]))
    (by rw [bitsValue_numeral, bitsValue_dropWhile, bitsValue_encodeFixed8])

/-- Where a byte's bits stand under `FIXED8`. -/
theorem getElem_encodeFixed8 (m : List Byte) (j : Nat) (hj : j < m.length) (k : Nat) (hk : k < 8) :
    (encodeFixed8 m)[8 * j + (7 - k)]? = some (m[j].getLsbD k) := by
  have bit : ∀ (v : Byte) (i : Fin 8), (byteBits v)[i.val]? = some (v.getLsbD (7 - i.val)) := by
    intro v i; fin_cases i <;> rfl
  induction m generalizing j with
  | nil => simp at hj
  | cons b m ih =>
    rw [encodeFixed8, List.flatMap_cons]
    cases j with
    | zero =>
      rw [List.getElem?_append_left (by simp; omega)]
      have := bit b ⟨7 - k, by omega⟩
      simp only at this
      rw [show 8 * 0 + (7 - k) = 7 - k by omega, this, show 7 - (7 - k) = k by omega]
      rfl
    | succ j =>
      rw [List.getElem?_append_right (by simp; omega)]
      have := ih j (by simpa using hj)
      rw [encodeFixed8] at this
      rw [length_byteBits, show 8 * (j + 1) + (7 - k) - 8 = 8 * j + (7 - k) by omega, this]
      rfl

end Sys2Proof.Machine
end

