-- ==== Sys2Proof/Laws/Output.lean ====
section
/-! SUPPORT. What each output port carried in the deliveries of the operations. -/

namespace Sys2Proof.Machine

@[simp] theorem smpOut_append (es fs : List Emission) : smpOut (es ++ fs) = smpOut es ++ smpOut fs := by simp [smpOut]
@[simp] theorem bitOut_append (es fs : List Emission) : bitOut (es ++ fs) = bitOut es ++ bitOut fs := by simp [bitOut]
@[simp] theorem verOut_append (es fs : List Emission) : verOut (es ++ fs) = verOut es ++ verOut fs := by simp [verOut]
@[simp] theorem chrOut_append (es fs : List Emission) : chrOut (es ++ fs) = chrOut es ++ chrOut fs := by simp [chrOut]
@[simp] theorem errOut_append (es fs : List Emission) : errOut (es ++ fs) = errOut es ++ errOut fs := by simp [errOut]

@[simp] theorem smpOut_nil : smpOut [] = [] := rfl
@[simp] theorem bitOut_nil : bitOut [] = [] := rfl
@[simp] theorem verOut_nil : verOut [] = [] := rfl
@[simp] theorem chrOut_nil : chrOut [] = [] := rfl
@[simp] theorem errOut_nil : errOut [] = [] := rfl

@[simp] theorem smpOut_error (e : BlockError) : smpOut [.error e] = [] := rfl
@[simp] theorem bitOut_error (e : BlockError) : bitOut [.error e] = [] := rfl
@[simp] theorem verOut_error (e : BlockError) : verOut [.error e] = [] := rfl
@[simp] theorem chrOut_error (e : BlockError) : chrOut [.error e] = [] := rfl
@[simp] theorem errOut_error (e : BlockError) : errOut [.error e] = [e] := rfl

/-! Samples (`SYNTH`, `MOD`). -/

@[simp] theorem smpOut_samples (xs : List Amp) : smpOut (xs.map .sample) = xs := by
  induction xs with
  | nil => rfl
  | cons x xs ih => simp [smpOut]
@[simp] theorem bitOut_samples (xs : List Amp) : bitOut (xs.map .sample) = [] := by simp [bitOut]
@[simp] theorem verOut_samples (xs : List Amp) : verOut (xs.map .sample) = [] := by simp [verOut]
@[simp] theorem chrOut_samples (xs : List Amp) : chrOut (xs.map .sample) = [] := by simp [chrOut]
@[simp] theorem errOut_samples (xs : List Amp) : errOut (xs.map .sample) = [] := by simp [errOut]

/-! Bits (`ENC`). -/

@[simp] theorem bitOut_bits (bs : List Bit) : bitOut (bs.map .bit) = bs := by
  induction bs with
  | nil => rfl
  | cons x xs ih => simp [bitOut]
@[simp] theorem smpOut_bits (bs : List Bit) : smpOut (bs.map .bit) = [] := by simp [smpOut]
@[simp] theorem verOut_bits (bs : List Bit) : verOut (bs.map .bit) = [] := by simp [verOut]
@[simp] theorem chrOut_bits (bs : List Bit) : chrOut (bs.map .bit) = [] := by simp [chrOut]
@[simp] theorem errOut_bits (bs : List Bit) : errOut (bs.map .bit) = [] := by simp [errOut]

/-! Windows (`DEMOD`). -/

@[simp] theorem verOut_verdicts (vs : List Verdict) : verOut (vs.flatMap verdictEmissions) = vs := by
  induction vs with
  | nil => rfl
  | cons v vs ih => rw [List.flatMap_cons, verOut_append, ih]; cases v <;> rfl
@[simp] theorem bitOut_verdicts (vs : List Verdict) : bitOut (vs.flatMap verdictEmissions) = vs.filterMap Verdict.bit? := by
  induction vs with
  | nil => rfl
  | cons v vs ih => rw [List.flatMap_cons, bitOut_append, ih]; cases v <;> rfl
@[simp] theorem smpOut_verdicts (vs : List Verdict) : smpOut (vs.flatMap verdictEmissions) = [] := by
  induction vs with
  | nil => rfl
  | cons v vs ih => rw [List.flatMap_cons, smpOut_append, ih]; cases v <;> rfl
@[simp] theorem chrOut_verdicts (vs : List Verdict) : chrOut (vs.flatMap verdictEmissions) = [] := by
  induction vs with
  | nil => rfl
  | cons v vs ih => rw [List.flatMap_cons, chrOut_append, ih]; cases v <;> rfl
@[simp] theorem errOut_verdicts (vs : List Verdict) : errOut (vs.flatMap verdictEmissions) = [] := by
  induction vs with
  | nil => rfl
  | cons v vs ih => rw [List.flatMap_cons, errOut_append, ih]; cases v <;> rfl

end Sys2Proof.Machine
end

