-- ==== Sys2Proof/Laws/Assembler.lean ====
section
/-! SUPPORT. The `FEED` loop, as what it leaves and reports. -/

namespace Sys2Proof.Machine

/-- The characters of a bit sequence's whole groups of 8. -/
def groupCharacters (b : Build) (bits : List Bit) : List Byte := (tiles 8 bits).map fun g => character b (val8 g)

theorem feedLoop_res (b : Build) (n : Nat) (res : List Bit) (text : List Byte) :
    (feedLoop b n res text).1 = res.drop (8 * n) := by
  induction n generalizing res text with
  | zero => simp [feedLoop]
  | succ n ih => simp only [feedLoop, ih, List.drop_drop]; congr 1; omega

theorem assemble_res (b : Build) (res : List Bit) (text : List Byte) :
    (assemble b res text).1 = res.drop (8 * (res.length / 8)) := feedLoop_res b _ res text

theorem tiles_eight_cons (res : List Bit) (h : 8 ≤ res.length) :
    tiles 8 res = res.take 8 :: tiles 8 (res.drop 8) := by
  conv_lhs => rw [← List.take_append_drop 8 res]
  have hl : (res.take 8).length = 8 := by simp [h]
  rw [tiles_append 8 (by decide) _ _ (by rw [hl]), tiles_self 8 (by decide) _ hl]
  rfl

theorem tiles_eight_short (res : List Bit) (h : res.length < 8) : tiles 8 res = [] := by
  simp [tiles, Nat.div_eq_of_lt h]

theorem feedLoop_text (b : Build) (n : Nat) (res : List Bit) (text : List Byte) (h : 8 * n ≤ res.length) :
    (feedLoop b n res text).2.1 = text ++ ((tiles 8 res).take n).map fun g => character b (val8 g) := by
  induction n generalizing res text with
  | zero => simp [feedLoop]
  | succ n ih =>
    rw [tiles_eight_cons res (by omega)]
    simp only [feedLoop]
    rw [ih _ _ (by rw [List.length_drop]; omega)]
    simp

/-- One character for each whole group. -/
theorem assemble_text (b : Build) (res : List Bit) (text : List Byte) :
    (assemble b res text).2.1 = text ++ groupCharacters b res := by
  rw [assemble, feedLoop_text b _ _ _ (by omega), groupCharacters, List.take_of_length_le (by simp)]

theorem assemble_short (b : Build) (res : List Bit) (text : List Byte) (h : res.length < 8) :
    assemble b res text = (res, text, []) := by
  rw [assemble, Nat.div_eq_of_lt h]; rfl

/-- One time round the loop. -/
theorem assemble_cons (b : Build) (res : List Bit) (text : List Byte) (h : 8 ≤ res.length) :
    assemble b res text =
      ((assemble b (res.drop 8) (text ++ [character b (val8 (res.take 8))])).1,
       (assemble b (res.drop 8) (text ++ [character b (val8 (res.take 8))])).2.1,
       groupEmissions b (val8 (res.take 8)) (text ++ [character b (val8 (res.take 8))])
        ++ (assemble b (res.drop 8) (text ++ [character b (val8 (res.take 8))])).2.2) := by
  obtain ⟨n, hn⟩ : ∃ n, res.length / 8 = n + 1 := ⟨res.length / 8 - 1, by omega⟩
  have hd : (res.drop 8).length / 8 = n := by rw [List.length_drop]; omega
  simp only [assemble, hn, hd, feedLoop]

theorem length_assemble_res (b : Build) (res : List Bit) (text : List Byte) :
    (assemble b res text).1.length = res.length % 8 := by
  rw [assemble_res, List.length_drop]; omega

theorem length_groupCharacters (b : Build) (res : List Bit) : (groupCharacters b res).length = res.length / 8 := by
  simp [groupCharacters]

/-- Feeding in two parts is feeding at once (rule R126). -/
theorem assemble_append (b : Build) (res more : List Bit) (text : List Byte) :
    assemble b (res ++ more) text =
      ((assemble b ((assemble b res text).1 ++ more) (assemble b res text).2.1).1,
       (assemble b ((assemble b res text).1 ++ more) (assemble b res text).2.1).2.1,
       (assemble b res text).2.2 ++ (assemble b ((assemble b res text).1 ++ more) (assemble b res text).2.1).2.2) := by
  by_cases h : res.length < 8
  · simp [assemble_short b res text h]
  · have h8 : 8 ≤ res.length := not_lt.mp h
    have ih := assemble_append b (res.drop 8) more (text ++ [character b (val8 (res.take 8))])
    rw [assemble_cons b (res ++ more) text (by rw [List.length_append]; omega), assemble_cons b res text h8,
      List.take_append_of_le_length h8, List.drop_append_of_le_length h8, ih]
    simp
termination_by res.length
decreasing_by rw [List.length_drop]; omega

theorem groupCharacters_eq (b : Build) (res : List Bit) :
    groupCharacters b res = (List.range (res.length / 8)).map fun k => character b (val8 ((res.drop (8 * k)).take 8)) := by
  simp [groupCharacters, tiles, Function.comp_def, Nat.mul_comm]

/-- What the loop delivers, group by group. -/
theorem assemble_out (b : Build) (res : List Bit) (text : List Byte) :
    (assemble b res text).2.2 = (List.range (res.length / 8)).flatMap fun m =>
      groupEmissions b (val8 ((res.drop (8 * m)).take 8))
        (text ++ (List.range (m + 1)).map fun k => character b (val8 ((res.drop (8 * k)).take 8))) := by
  unfold assemble
  generalize res.length / 8 = n
  induction n generalizing res text with
  | zero => simp [feedLoop]
  | succ n ih =>
    rw [List.range_succ_eq_map, List.flatMap_cons]
    simp only [feedLoop, ih]
    congr 1
    rw [List.flatMap_map]
    congr 1
    funext m
    have e : ∀ m, List.drop (8 * (m + 1)) res = List.drop (8 * m) (List.drop 8 res) := by
      intro m; rw [List.drop_drop]; congr 1; omega
    rw [e]
    congr 1
    rw [List.range_succ_eq_map (n := m + 1)]
    simp [Function.comp_def, e]

theorem smpOut_flatMap {α : Type} (l : List α) (f : α → List Emission) : smpOut (l.flatMap f) = l.flatMap fun a => smpOut (f a) := by
  induction l with
  | nil => rfl
  | cons a l ih => simp [ih]

theorem chrOut_flatMap {α : Type} (l : List α) (f : α → List Emission) : chrOut (l.flatMap f) = l.flatMap fun a => chrOut (f a) := by
  induction l with
  | nil => rfl
  | cons a l ih => simp [ih]

theorem errOut_flatMap {α : Type} (l : List α) (f : α → List Emission) : errOut (l.flatMap f) = l.flatMap fun a => errOut (f a) := by
  induction l with
  | nil => rfl
  | cons a l ih => simp [ih]

theorem smpOut_groupEmissions (b : Build) (v : Byte) (text : List Byte) : smpOut (groupEmissions b v text) = [] := by
  unfold groupEmissions; split <;> rfl

theorem chrOut_groupEmissions (b : Build) (v : Byte) (text : List Byte) :
    chrOut (groupEmissions b v text) = [(character b v, text)] := by
  unfold groupEmissions character; split <;> rfl

theorem errOut_groupEmissions (b : Build) (v : Byte) (text : List Byte) :
    errOut (groupEmissions b v text) = if b.charValid v then [] else [.invalidByte v] := by
  unfold groupEmissions; split <;> rfl

/-- `FEED` puts no sample on a port. -/
theorem smpOut_assemble (b : Build) (res : List Bit) (text : List Byte) : smpOut (assemble b res text).2.2 = [] := by
  rw [assemble_out, smpOut_flatMap, List.flatMap_eq_nil_iff]
  exact fun _ _ => smpOut_groupEmissions _ _ _

/-- The reports, one for each whole group (rule R128). -/
theorem chrOut_assemble (b : Build) (res : List Bit) (text : List Byte) :
    chrOut (assemble b res text).2.2 = (List.range (res.length / 8)).map fun m =>
      (character b (val8 ((res.drop (8 * m)).take 8)),
        text ++ (List.range (m + 1)).map fun k => character b (val8 ((res.drop (8 * k)).take 8))) := by
  rw [assemble_out, chrOut_flatMap]
  simp only [chrOut_groupEmissions]
  rw [← List.map_eq_flatMap]

theorem fitsText_unbounded {b : Build} (h : b.textCap = none) (res : List Bit) (text : List Byte) :
    fitsText b res text = true := by simp [fitsText, h]

end Sys2Proof.Machine
end

