-- ==== Sys2Proof/Laws/SignGap.lean ====
section
/-! SUPPORT. How far from zero the value of an amplitude is when it is not zero: `2 · D · value` is an algebraic integer of
the cyclotomic field of the phases' denominator, so the product of its conjugates is a whole number, and each conjugate is
bounded by the coefficients. -/

namespace Sys2Proof.Machine

open Real

/-- A number of the form `Σ m_j · (ζ^a_j - ζ^b_j)` with whole `m_j`, in a field with a chosen `ζ`. -/
def rootSum {R : Type*} [CommRing R] (z : R) (ts : List (ℤ × ℕ × ℕ)) : R :=
  (ts.map fun t => (t.1 : R) * (z ^ t.2.1 - z ^ t.2.2)).sum

def rootBound (ts : List (ℤ × ℕ × ℕ)) : ℕ := (ts.map fun t => 2 * t.1.natAbs).sum

theorem rootSum_map {R S : Type*} [CommRing R] [CommRing S] (f : R →+* S) (z : R) (ts : List (ℤ × ℕ × ℕ)) :
    f (rootSum z ts) = rootSum (f z) ts := by
  induction ts with
  | nil => simp [rootSum]
  | cons t ts ih => simp only [rootSum, List.map_cons, List.sum_cons, map_add] at ih ⊢; rw [ih]; simp

theorem rootSum_norm_le (z : ℂ) (hz : ‖z‖ = 1) (ts : List (ℤ × ℕ × ℕ)) : ‖rootSum z ts‖ ≤ rootBound ts := by
  induction ts with
  | nil => simp [rootSum, rootBound]
  | cons t ts ih =>
    simp only [rootSum, rootBound, List.map_cons, List.sum_cons] at ih ⊢
    refine (norm_add_le _ _).trans ?_
    push_cast at ih ⊢
    refine add_le_add ?_ ih
    rw [norm_mul]
    have h1 : ‖(t.1 : ℂ)‖ = |(t.1 : ℝ)| := by simp
    have h2 : ‖z ^ t.2.1 - z ^ t.2.2‖ ≤ 2 := by
      refine (norm_sub_le _ _).trans ?_
      rw [norm_pow, norm_pow, hz]; norm_num
    rw [h1, Nat.cast_natAbs, Int.cast_abs, mul_comm 2]
    exact mul_le_mul_of_nonneg_left h2 (abs_nonneg _)

theorem rootSum_isIntegral {R : Type*} [CommRing R] (z : R) (hz : IsIntegral ℤ z) (ts : List (ℤ × ℕ × ℕ)) :
    IsIntegral ℤ (rootSum z ts) := by
  induction ts with
  | nil => simpa [rootSum] using isIntegral_zero
  | cons t ts ih =>
    simp only [rootSum, List.map_cons, List.sum_cons] at ih ⊢
    refine IsIntegral.add (IsIntegral.mul ?_ ((hz.pow _).sub (hz.pow _))) ih
    exact isIntegral_algebraMap (R := ℤ) (A := R) (x := t.1)

/-- A whole combination of powers of a primitive `n`-th root of unity that is not zero is at least `B ^ -n`. -/
theorem rootSum_gap (n : ℕ) (hn : 0 < n) (ts : List (ℤ × ℕ × ℕ)) (hne : rootSum (Complex.exp (2 * π * Complex.I / n)) ts ≠ 0) :
    1 ≤ ‖rootSum (Complex.exp (2 * π * Complex.I / n)) ts‖ * (rootBound ts : ℝ) ^ n := by
  classical
  have : NeZero n := ⟨hn.ne'⟩
  have : NeZero ((n : ℕ) : ℚ) := ⟨by exact_mod_cast hn.ne'⟩
  have : IsCyclotomicExtension {n} ℚ (CyclotomicField n ℚ) := CyclotomicField.isCyclotomicExtension n ℚ
  have hprim := Complex.isPrimitiveRoot_exp n hn.ne'
  have hζ := IsCyclotomicExtension.zeta_spec n ℚ (CyclotomicField n ℚ)
  have hirr := Polynomial.cyclotomic.irreducible_rat hn
  obtain ⟨σ0, hσ0⟩ : ∃ σ : CyclotomicField n ℚ →ₐ[ℚ] ℂ,
      σ (IsCyclotomicExtension.zeta n ℚ (CyclotomicField n ℚ)) = Complex.exp (2 * π * Complex.I / n) :=
    ⟨(hζ.embeddingsEquivPrimitiveRoots ℂ hirr).symm ⟨_, (mem_primitiveRoots hn).mpr hprim⟩, by
      rw [← hζ.embeddingsEquivPrimitiveRoots_apply_coe ℂ hirr, Equiv.apply_symm_apply]⟩
  generalize IsCyclotomicExtension.zeta n ℚ (CyclotomicField n ℚ) = ζ at *
  have hnorm : ∀ σ : CyclotomicField n ℚ →ₐ[ℚ] ℂ, ‖σ ζ‖ = 1 := fun σ =>
    (hζ.map_of_injective σ.injective).norm'_eq_one hn.ne'
  have hx : ∀ σ : CyclotomicField n ℚ →ₐ[ℚ] ℂ, ‖σ (rootSum ζ ts)‖ ≤ rootBound ts := fun σ => by
    rw [show σ (rootSum ζ ts) = rootSum (σ ζ) ts from rootSum_map σ.toRingHom ζ ts]
    exact rootSum_norm_le _ (hnorm σ) ts
  have hx0 : σ0 (rootSum ζ ts) = rootSum (Complex.exp (2 * π * Complex.I / n)) ts := by
    rw [show σ0 (rootSum ζ ts) = rootSum (σ0 ζ) ts from rootSum_map σ0.toRingHom ζ ts, hσ0]
  have hxne : rootSum ζ ts ≠ 0 := fun h => hne (by rw [← hx0, h, map_zero])
  -- the norm is a whole number that is not zero
  have hint : IsIntegral ℤ (Algebra.norm ℚ (rootSum ζ ts)) :=
    Algebra.isIntegral_norm ℚ (rootSum_isIntegral ζ (hζ.isIntegral hn) ts)
  obtain ⟨m, hm⟩ := IsIntegrallyClosed.isIntegral_iff.mp hint
  have hNne : Algebra.norm ℚ (rootSum ζ ts) ≠ 0 := Algebra.norm_ne_zero_iff.mpr hxne
  have hm0 : m ≠ 0 := fun h => hNne (by rw [← hm, h, map_zero])
  have hm1 : (1 : ℝ) ≤ |(m : ℝ)| := by exact_mod_cast Int.one_le_abs hm0
  have hprod := Algebra.norm_eq_prod_embeddings ℚ ℂ (rootSum ζ ts)
  have habs : |(m : ℝ)| = ∏ σ : CyclotomicField n ℚ →ₐ[ℚ] ℂ, ‖σ (rootSum ζ ts)‖ := by
    rw [← norm_prod, ← hprod, ← hm]
    simp
  -- the chosen conjugate against all the others
  have hcard : Fintype.card (CyclotomicField n ℚ →ₐ[ℚ] ℂ) ≤ n := by
    rw [AlgHom.card, IsCyclotomicExtension.finrank _ hirr]
    exact Nat.totient_le n
  rw [← Finset.mul_prod_erase _ _ (Finset.mem_univ σ0), hx0] at habs
  have hothers : ∏ σ ∈ (Finset.univ : Finset (CyclotomicField n ℚ →ₐ[ℚ] ℂ)).erase σ0, ‖σ (rootSum ζ ts)‖
      ≤ (rootBound ts : ℝ) ^ (Finset.card ((Finset.univ : Finset (CyclotomicField n ℚ →ₐ[ℚ] ℂ)).erase σ0)) :=
    (Finset.prod_le_prod (fun σ _ => norm_nonneg _) fun σ _ => hx σ).trans_eq (Finset.prod_const _)
  have hB1 : (1 : ℝ) ≤ rootBound ts := by
    have hpos : 0 < ‖σ0 (rootSum ζ ts)‖ := norm_pos_iff.mpr (by rw [hx0]; exact hne)
    have : (0 : ℝ) < rootBound ts := hpos.trans_le (hx σ0)
    exact_mod_cast this
  have hpow : (rootBound ts : ℝ) ^ (Finset.card ((Finset.univ : Finset (CyclotomicField n ℚ →ₐ[ℚ] ℂ)).erase σ0))
      ≤ (rootBound ts : ℝ) ^ n := by
    refine pow_le_pow_right₀ hB1 (le_trans (Finset.card_le_card (Finset.erase_subset _ _)) ?_)
    rw [Finset.card_univ]; exact hcard
  calc (1 : ℝ) ≤ |(m : ℝ)| := hm1
    _ = ‖rootSum (Complex.exp (2 * π * Complex.I / n)) ts‖ * _ := habs
    _ ≤ _ := mul_le_mul_of_nonneg_left (hothers.trans hpow) (norm_nonneg _)

/-- The whole combination that `2 · D · value` is, for a common denominator `N` of the phases and `D` of the
coefficients. -/
def rootTerms (N D : ℕ) (a : Amp) : List (ℤ × ℕ × ℕ) :=
  a.map fun t =>
    (((D : ℚ) * t.coeff).num, (((N : ℚ) * t.turns).num % N).toNat, ((-((N : ℚ) * t.turns)).num % N).toNat)

/-- `exp(2πi/N)` to the power `k mod N`. -/
theorem exp_pow_emod (N : ℕ) (hN : 0 < N) (k : ℤ) :
    Complex.exp (2 * π * Complex.I / N) ^ (k % N).toNat = Complex.exp (2 * π * Complex.I * k / N) := by
  have hN' : (N : ℂ) ≠ 0 := by exact_mod_cast hN.ne'
  have hk : ((k % N).toNat : ℤ) = k - N * (k / N) := by
    rw [Int.toNat_of_nonneg (Int.emod_nonneg _ (by exact_mod_cast hN.ne'))]
    have := Int.emod_add_mul_ediv k N
    linarith
  rw [← Complex.exp_nat_mul]
  have hc : (((k % N).toNat : ℕ) : ℂ) = (k : ℂ) - N * ((k / N : ℤ) : ℂ) := by exact_mod_cast hk
  rw [hc, Complex.exp_eq_exp_iff_exists_int]
  exact ⟨-(k / N), by push_cast; field_simp; ring⟩

theorem den_dvd_mul_isInt (q : ℚ) (n : ℕ) (h : q.den ∣ n) : (((n : ℚ) * q).num : ℚ) = (n : ℚ) * q := by
  obtain ⟨m, rfl⟩ := h
  have : ((q.den * m : ℕ) : ℚ) * q = ((m * q.num : ℤ) : ℚ) := by
    push_cast
    have := Rat.den_mul_eq_num q
    linear_combination (m : ℚ) * this
  rw [this, Rat.num_intCast]

theorem rootSum_rootTerms (N D : ℕ) (hN : 0 < N) (a : Amp) (ha : ∀ t ∈ a, t.turns.den ∣ N ∧ t.coeff.den ∣ D) :
    rootSum (Complex.exp (2 * π * Complex.I / N)) (rootTerms N D a) = 2 * D * (ampVal a : ℂ) * Complex.I := by
  induction a with
  | nil => simp [rootSum, rootTerms]
  | cons t rest ih =>
    have hN' : (N : ℂ) ≠ 0 := by exact_mod_cast hN.ne'
    obtain ⟨ht, hc⟩ := ha t (by simp)
    have ih := ih fun u hu => ha u (by simp [hu])
    simp only [rootSum, rootTerms, List.map_cons, List.sum_cons, List.map_map] at ih ⊢
    rw [ih, exp_pow_emod N hN, exp_pow_emod N hN, ampVal_cons]
    have h1 : (((N : ℚ) * t.turns).num : ℂ) = (N : ℂ) * (t.turns : ℂ) := by
      exact_mod_cast congrArg (fun q : ℚ => (q : ℂ)) (den_dvd_mul_isInt t.turns N ht)
    have h2 : ((-((N : ℚ) * t.turns)).num : ℂ) = -((N : ℂ) * (t.turns : ℂ)) := by
      rw [Rat.neg_num, Int.cast_neg, h1]
    have h3 : (((D : ℚ) * t.coeff).num : ℂ) = (D : ℂ) * (t.coeff : ℂ) := by
      exact_mod_cast congrArg (fun q : ℚ => (q : ℂ)) (den_dvd_mul_isInt t.coeff D hc)
    rw [h1, h2, h3]
    have e1 : 2 * (π : ℂ) * Complex.I * ((N : ℂ) * (t.turns : ℂ)) / N = (2 * π * (t.turns : ℂ)) * Complex.I := by
      field_simp
    have e2 : 2 * (π : ℂ) * Complex.I * (-((N : ℂ) * (t.turns : ℂ))) / N = (-(2 * π * (t.turns : ℂ))) * Complex.I := by
      field_simp
    rw [e1, e2, Complex.exp_mul_I, Complex.exp_mul_I, Complex.cos_neg, Complex.sin_neg]
    push_cast
    ring

theorem rootBound_rootTerms (N D : ℕ) (a : Amp) (ha : ∀ t ∈ a, t.coeff.den ∣ D) :
    ((rootBound (rootTerms N D a) : ℕ) : ℚ) = 2 * D * coeffNorm a := by
  induction a with
  | nil => simp [rootBound, rootTerms, coeffNorm]
  | cons t rest ih =>
    have ih := ih fun u hu => ha u (by simp [hu])
    simp only [rootBound, rootTerms, List.map_cons, List.sum_cons, coeffNorm, List.foldr_cons] at ih ⊢
    push_cast at ih ⊢
    rw [ih, Nat.cast_natAbs, Int.cast_abs, den_dvd_mul_isInt t.coeff D (ha t (by simp)), abs_mul, Nat.abs_cast]
    ring

theorem den_dvd_turnsDen (a : Amp) (t : Term) (h : t ∈ a) : t.turns.den ∣ turnsDen a := by
  induction a with
  | nil => simp at h
  | cons u rest ih =>
    rcases List.mem_cons.mp h with rfl | h
    · exact Nat.dvd_lcm_left _ _
    · exact (ih h).trans (Nat.dvd_lcm_right _ _)

theorem den_dvd_coeffDen (a : Amp) (t : Term) (h : t ∈ a) : t.coeff.den ∣ coeffDen a := by
  induction a with
  | nil => simp at h
  | cons u rest ih =>
    rcases List.mem_cons.mp h with rfl | h
    · exact Nat.dvd_lcm_left _ _
    · exact (ih h).trans (Nat.dvd_lcm_right _ _)

theorem turnsDen_pos (a : Amp) : 0 < turnsDen a := by
  induction a with
  | nil => simp [turnsDen]
  | cons u rest ih => exact Nat.lcm_pos u.turns.den_pos ih

theorem coeffDen_pos (a : Amp) : 0 < coeffDen a := by
  induction a with
  | nil => simp [coeffDen]
  | cons u rest ih => exact Nat.lcm_pos u.coeff.den_pos ih

/-- The whole number `B = 2 · D · coeffNorm a` of `gapPrecision`. -/
def gapBase (a : Amp) : ℕ := (2 * coeffDen a * coeffNorm a).floor.toNat

theorem gapBase_eq (a : Amp) : ((gapBase a : ℕ) : ℚ) = 2 * coeffDen a * coeffNorm a := by
  have h := rootBound_rootTerms (turnsDen a) (coeffDen a) a fun t ht => den_dvd_coeffDen a t ht
  rw [gapBase, ← h]
  congr 1

/-- The value is zero or at least `1 / (2 · D · B ^ N)` in magnitude. -/
theorem ampVal_gap (a : Amp) (h : ampVal a ≠ 0) :
    1 ≤ 2 * (coeffDen a : ℝ) * |ampVal a| * (gapBase a : ℝ) ^ turnsDen a := by
  have hs := rootSum_rootTerms (turnsDen a) (coeffDen a) (turnsDen_pos a) a
    fun t ht => ⟨den_dvd_turnsDen a t ht, den_dvd_coeffDen a t ht⟩
  have hD : (coeffDen a : ℂ) ≠ 0 := by exact_mod_cast (coeffDen_pos a).ne'
  have hne : rootSum (Complex.exp (2 * π * Complex.I / turnsDen a)) (rootTerms (turnsDen a) (coeffDen a) a) ≠ 0 := by
    rw [hs]
    have : (ampVal a : ℂ) ≠ 0 := by exact_mod_cast h
    simp [hD, this]
  have hg := rootSum_gap (turnsDen a) (turnsDen_pos a) _ hne
  have hb : (rootBound (rootTerms (turnsDen a) (coeffDen a) a) : ℝ) = gapBase a := by
    have h1 := rootBound_rootTerms (turnsDen a) (coeffDen a) a fun t ht => den_dvd_coeffDen a t ht
    rw [← gapBase_eq] at h1
    exact_mod_cast h1
  have hn : ‖rootSum (Complex.exp (2 * π * Complex.I / turnsDen a)) (rootTerms (turnsDen a) (coeffDen a) a)‖
      = 2 * (coeffDen a : ℝ) * |ampVal a| := by
    rw [hs]; simp
  rwa [hb, hn] at hg

end Sys2Proof.Machine
end

