-- ==== Sys2Proof/Laws/SineApprox.lean ====
section
/-! SUPPORT. The rational enclosures of `Machine/Amplitude.lean`: how far `piApprox`, `angleApprox` and `sineApprox` can be
from the real numbers they stand for. -/

namespace Sys2Proof.Machine

open Real

theorem arctanSum_eq (x : Q) (k : Nat) :
    ((arctanSum x k : ℚ) : ℝ)
      = ∑ n ∈ Finset.range k, (-1 : ℝ) ^ n * (x : ℝ) ^ (2 * n + 1) / ((2 * n + 1 : ℕ) : ℝ) := by
  induction k with
  | zero => simp [arctanSum]
  | succ k ih => rw [Finset.sum_range_succ, ← ih, arctanSum]; push_cast; ring

/-- The tail of the series of `arctan x`, for `0 ≤ x ≤ 1/5`. -/
theorem arctanSum_error (x : Q) (k : Nat) (h0 : 0 ≤ x) (h1 : x ≤ 1/5) :
    |arctan (x : ℝ) - ((arctanSum x k : ℚ) : ℝ)| ≤ (1/25 : ℝ) ^ k := by
  have hx0 : (0 : ℝ) ≤ (x : ℝ) := by exact_mod_cast h0
  have hx1 : (x : ℝ) ≤ 1/5 := by have : ((x : ℚ) : ℝ) ≤ ((1/5 : ℚ) : ℝ) := by exact_mod_cast h1
                                 simpa using this
  have hs := Real.hasSum_arctan (x := (x : ℝ)) (by rw [Real.norm_of_nonneg hx0]; linarith)
  have ht := (hasSum_nat_add_iff' k).mpr hs
  rw [arctanSum_eq, ← ht.tsum_eq, ← Real.norm_eq_abs]
  have hg : HasSum (fun n : ℕ => (1/5 : ℝ) * (1/25) ^ k * (1/25 : ℝ) ^ n) ((1/5 : ℝ) * (1/25) ^ k * (1 - 1/25)⁻¹) :=
    (hasSum_geometric_of_lt_one (by norm_num) (by norm_num)).mul_left _
  refine (tsum_of_norm_bounded hg fun n => ?_).trans ?_
  · have hp : (x : ℝ) ^ (2 * (n + k) + 1) ≤ (1/5 : ℝ) ^ (2 * (n + k) + 1) := pow_le_pow_left₀ hx0 hx1 _
    have hd : (1 : ℝ) ≤ ((2 * (n + k) + 1 : ℕ) : ℝ) := by exact_mod_cast Nat.le_add_left 1 _
    rw [norm_div, norm_mul, norm_pow, norm_neg, norm_one, one_pow, one_mul, norm_pow, Real.norm_of_nonneg hx0,
      Real.norm_of_nonneg (by positivity)]
    calc (x : ℝ) ^ (2 * (n + k) + 1) / ((2 * (n + k) + 1 : ℕ) : ℝ)
        ≤ (x : ℝ) ^ (2 * (n + k) + 1) := div_le_self (by positivity) hd
      _ ≤ (1/5 : ℝ) ^ (2 * (n + k) + 1) := hp
      _ = (1/5 : ℝ) * (1/25) ^ k * (1/25 : ℝ) ^ n := by
          rw [pow_succ, pow_mul, show ((1/5 : ℝ) ^ 2) = 1/25 by norm_num, pow_add]; ring
  · have : (0 : ℝ) ≤ (1/25 : ℝ) ^ k := by positivity
    nlinarith

/-- Rounding down to a multiple of `2 ^ -q`. -/
theorem floor_error (x : ℝ) (r : Q) (q : Nat) (e : ℝ) (h : |x - (r : ℝ)| ≤ e) :
    |x - ((((r * 2 ^ q).floor : Q) / 2 ^ q : ℚ) : ℝ)| ≤ e + 1 / 2 ^ q := by
  have hp : (0 : ℝ) < 2 ^ q := by positivity
  have h1 : (((r * 2 ^ q).floor : ℤ) : ℝ) ≤ (r : ℝ) * 2 ^ q := by
    have := Int.floor_le (r * 2 ^ q)
    exact_mod_cast this
  have h2 : (r : ℝ) * 2 ^ q < (((r * 2 ^ q).floor : ℤ) : ℝ) + 1 := by
    have := Int.lt_floor_add_one (r * 2 ^ q)
    exact_mod_cast this
  have h3 : (((r * 2 ^ q).floor : ℤ) : ℝ) / 2 ^ q ≤ (r : ℝ) := by rwa [div_le_iff₀ hp]
  have h4 : (r : ℝ) ≤ (((r * 2 ^ q).floor : ℤ) : ℝ) / 2 ^ q + 1 / 2 ^ q := by
    rw [← add_div, le_div_iff₀ hp]; exact h2.le
  push_cast
  rw [abs_le] at h ⊢
  constructor <;> linarith [h.1, h.2]

theorem piApprox_error (q : Nat) : |π - ((piApprox q : ℚ) : ℝ)| ≤ 1 / 2 ^ q := by
  unfold piApprox
  by_cases hq : q ≤ 64
  · rw [if_pos hq]
    have h1 := Real.pi_gt_d20
    have h2 := Real.pi_lt_d20
    have h3 : (1 : ℝ) / 2 ^ 64 ≤ 1 / 2 ^ q :=
      one_div_le_one_div_of_le (by positivity) (pow_le_pow_right₀ (by norm_num) hq)
    push_cast
    rw [abs_le]
    constructor <;> norm_num at * <;> linarith
  · rw [if_neg hq]
    have hk : q + 9 ≤ 4 * (q / 4 + 3) := by omega
    have hpow : (1/25 : ℝ) ^ (q / 4 + 3) ≤ 1 / 2 ^ (q + 9) := by
      calc (1/25 : ℝ) ^ (q / 4 + 3) ≤ (1/16 : ℝ) ^ (q / 4 + 3) :=
            pow_le_pow_left₀ (by norm_num) (by norm_num) _
        _ = 1 / 2 ^ (4 * (q / 4 + 3)) := by rw [pow_mul, one_div_pow]; norm_num
        _ ≤ 1 / 2 ^ (q + 9) := one_div_le_one_div_of_le (by positivity) (pow_le_pow_right₀ (by norm_num) hk)
    have ha := arctanSum_error (1/5) (q / 4 + 3) (by norm_num) (by norm_num)
    have hb := arctanSum_error (1/239) (q / 4 + 3) (by norm_num) (by norm_num)
    have hm := Real.four_mul_arctan_inv_5_sub_arctan_inv_239
    have e5 : ((1/5 : ℚ) : ℝ) = 5⁻¹ := by norm_num
    have e239 : ((1/239 : ℚ) : ℝ) = 239⁻¹ := by norm_num
    rw [e5] at ha
    rw [e239] at hb
    have hsum : |π - ((4 * (4 * arctanSum (1/5) (q / 4 + 3) - arctanSum (1/239) (q / 4 + 3)) : ℚ) : ℝ)|
        ≤ 20 * (1 / 2 ^ (q + 9)) := by
      have h1 := ha.trans hpow
      have h2 := hb.trans hpow
      push_cast
      rw [abs_le] at h1 h2 ⊢
      constructor <;> linarith [h1.1, h1.2, h2.1, h2.2]
    refine (floor_error π _ (q + 1) _ hsum).trans ?_
    have hq0 : (0 : ℝ) < 1 / 2 ^ q := by positivity
    have e9 : (1 : ℝ) / 2 ^ (q + 9) = 1 / 2 ^ q * (1 / 512) := by rw [pow_add]; norm_num [mul_comm]
    have e1 : (1 : ℝ) / 2 ^ (q + 1) = 1 / 2 ^ q * (1 / 2) := by rw [pow_add]; norm_num [mul_comm]
    rw [e9, e1]
    linarith

theorem frac_bounds (x : Q) : 0 ≤ frac x ∧ frac x < 1 := by
  have h1 := Int.floor_le x
  have h2 := Int.lt_floor_add_one x
  unfold frac
  constructor
  · have : ((x.floor : ℤ) : ℚ) ≤ x := h1
    linarith
  · have : x < ((x.floor : ℤ) : ℚ) + 1 := h2
    linarith

theorem angleApprox_error (p : Nat) (turns : Q) :
    |2 * π * ((frac turns : ℚ) : ℝ) - ((angleApprox p turns : ℚ) : ℝ)| ≤ 3 / 16 * (1 / 2 ^ p) := by
  obtain ⟨h0, h1⟩ := frac_bounds turns
  have h0' : (0 : ℝ) ≤ ((frac turns : ℚ) : ℝ) := by exact_mod_cast h0
  have h1' : ((frac turns : ℚ) : ℝ) ≤ 1 := by exact_mod_cast h1.le
  have hpi := piApprox_error (p + 4)
  have hm : |2 * π * ((frac turns : ℚ) : ℝ) - ((2 * piApprox (p + 4) * frac turns : ℚ) : ℝ)|
      ≤ 2 * (1 / 2 ^ (p + 4)) := by
    push_cast
    rw [show 2 * π * ((frac turns : ℚ) : ℝ) - 2 * ((piApprox (p + 4) : ℚ) : ℝ) * ((frac turns : ℚ) : ℝ)
      = 2 * ((π - ((piApprox (p + 4) : ℚ) : ℝ)) * ((frac turns : ℚ) : ℝ)) by ring, abs_mul, abs_mul, abs_of_nonneg h0']
    have := mul_le_mul hpi h1' h0' (by positivity)
    norm_num at this ⊢
    linarith
  refine (floor_error _ _ (p + 4) _ hm).trans ?_
  have e4 : (1 : ℝ) / 2 ^ (p + 4) = 1 / 2 ^ p * (1 / 16) := by rw [pow_add]; norm_num [mul_comm]
  rw [e4]
  linarith

theorem sineNested_eq (y : Q) (n k : Nat) :
    sineNested y n k
      = ∑ m ∈ Finset.range n, (-y) ^ m * ((2 * k + 1).factorial : ℚ) / ((2 * (k + m) + 1).factorial : ℚ) := by
  induction n generalizing k with
  | zero => simp [sineNested]
  | succ n ih =>
    rw [sineNested, ih, Finset.sum_range_succ']
    have hk : ((2 * k + 1).factorial : ℚ) ≠ 0 := by positivity
    rw [show (-y) ^ 0 * ((2 * k + 1).factorial : ℚ) / ((2 * (k + 0) + 1).factorial : ℚ) = 1 by simp [hk],
      Finset.mul_sum, sub_eq_add_neg, add_comm, ← Finset.sum_neg_distrib]
    congr 1
    refine Finset.sum_congr rfl fun m _ => ?_
    have hf : ((2 * (k + 1) + 1).factorial : ℚ) = (2 * k + 3) * ((2 * k + 2) * ((2 * k + 1).factorial : ℚ)) := by
      rw [show 2 * (k + 1) + 1 = (2 * k + 1) + 1 + 1 by ring, Nat.factorial_succ, Nat.factorial_succ]; push_cast; ring
    have hd : ((2 * (k + (m + 1)) + 1).factorial : ℚ) ≠ 0 := by positivity
    have h2 : ((2 : ℚ) * k + 2) ≠ 0 := by positivity
    have h3 : ((2 : ℚ) * k + 3) ≠ 0 := by positivity
    rw [hf, show 2 * (k + 1 + m) + 1 = 2 * (k + (m + 1)) + 1 by ring]
    field_simp
    ring

/-- `16 ^ m ≤ 2 ^ 20 · m!`, which bounds the terms of the sine's series for angles up to 8. -/
theorem pow_le_factorial (m : Nat) : 16 ^ m ≤ 2 ^ 20 * m.factorial := by
  by_cases h : m ≤ 16
  · interval_cases m <;> decide
  · obtain ⟨j, rfl⟩ := Nat.exists_eq_add_of_lt (Nat.lt_of_not_le h)
    induction j with
    | zero => decide
    | succ j ih =>
      have := ih (by omega)
      rw [show 16 + (j + 1) + 1 = (16 + j + 1) + 1 by ring, pow_succ, Nat.factorial_succ]
      nlinarith [Nat.factorial_pos (16 + j + 1)]

/-- The tail of the series of `sin x` for angles up to 8. -/
theorem sineSum_error (x : Q) (n : Nat) (hx : |(x : ℝ)| ≤ 8) :
    |sin (x : ℝ) - ((x * sineNested (x * x) n 0 : ℚ) : ℝ)| ≤ 2 ^ 20 / 4 ^ n := by
  have hs := Real.hasSum_sin (x : ℝ)
  have ht := (hasSum_nat_add_iff' n).mpr hs
  have hp : ((x * sineNested (x * x) n 0 : ℚ) : ℝ)
      = ∑ m ∈ Finset.range n, (-1 : ℝ) ^ m * (x : ℝ) ^ (2 * m + 1) / ((2 * m + 1).factorial : ℝ) := by
    rw [sineNested_eq]
    push_cast
    rw [Finset.mul_sum]
    refine Finset.sum_congr rfl fun m _ => ?_
    rw [zero_add, pow_succ, pow_mul, neg_eq_neg_one_mul, mul_pow]
    simp
    ring
  rw [hp, ← ht.tsum_eq, ← Real.norm_eq_abs]
  have hg : HasSum (fun m : ℕ => (2 ^ 20 / 2 : ℝ) * (1 / 4 ^ n) * (1/4 : ℝ) ^ m)
      ((2 ^ 20 / 2 : ℝ) * (1 / 4 ^ n) * (1 - 1/4)⁻¹) :=
    (hasSum_geometric_of_lt_one (by norm_num) (by norm_num)).mul_left _
  refine (tsum_of_norm_bounded hg fun m => ?_).trans ?_
  · have hf := pow_le_factorial (2 * (m + n) + 1)
    have hf' : (16 : ℝ) ^ (2 * (m + n) + 1) ≤ 2 ^ 20 * ((2 * (m + n) + 1).factorial : ℝ) := by exact_mod_cast hf
    have hfp : (0 : ℝ) < ((2 * (m + n) + 1).factorial : ℝ) := by positivity
    rw [norm_div, norm_mul, norm_pow, norm_neg, norm_one, one_pow, one_mul, norm_pow, Real.norm_eq_abs,
      Real.norm_of_nonneg hfp.le, div_le_iff₀ hfp]
    have h8 : |(x : ℝ)| ^ (2 * (m + n) + 1) ≤ 8 ^ (2 * (m + n) + 1) := pow_le_pow_left₀ (abs_nonneg _) hx _
    have h16 : (16 : ℝ) ^ (2 * (m + n) + 1) = 8 ^ (2 * (m + n) + 1) * (2 * (4 ^ n * 4 ^ m)) := by
      rw [show (16 : ℝ) = 8 * 2 by norm_num, mul_pow]
      congr 1
      rw [pow_succ, pow_mul, ← pow_add, show (2 : ℝ) ^ 2 = 4 by norm_num, add_comm m n]; ring
    have hq : (0 : ℝ) < 2 * (4 ^ n * 4 ^ m) := by positivity
    have : (2 ^ 20 / 2 : ℝ) * (1 / 4 ^ n) * (1/4 : ℝ) ^ m * ((2 * (m + n) + 1).factorial : ℝ)
        = 2 ^ 20 * ((2 * (m + n) + 1).factorial : ℝ) / (2 * (4 ^ n * 4 ^ m)) := by
      rw [one_div_pow]; field_simp
    rw [this, le_div_iff₀ hq]
    nlinarith
  · have h4 : (0 : ℝ) < 1 / 4 ^ n := by positivity
    rw [div_eq_mul_one_div ((2 : ℝ) ^ 20) (4 ^ n), show ((1 : ℝ) - 1/4)⁻¹ = 4/3 by norm_num]
    linarith

/-- `sineApprox p t` is within `2 ^ -p` of `sin(2π · t)`. -/
theorem sineApprox_error (p : Nat) (turns : Q) :
    |sin (2 * π * (turns : ℝ)) - ((sineApprox p turns : ℚ) : ℝ)| ≤ 1 / 2 ^ p := by
  have ha := angleApprox_error p turns
  obtain ⟨h0, h1⟩ := frac_bounds turns
  have h0' : (0 : ℝ) ≤ ((frac turns : ℚ) : ℝ) := by exact_mod_cast h0
  have h1' : ((frac turns : ℚ) : ℝ) ≤ 1 := by exact_mod_cast h1.le
  have hp1 : (1 : ℝ) / 2 ^ p ≤ 1 := by
    rw [div_le_one (by positivity)]; exact one_le_pow₀ (by norm_num)
  have hx : |((angleApprox p turns : ℚ) : ℝ)| ≤ 8 := by
    have hpi := Real.pi_lt_d2
    have := Real.pi_pos
    rw [abs_le] at ha ⊢
    constructor <;> nlinarith [ha.1, ha.2]
  have hs := sineSum_error (angleApprox p turns) ((p + 24) / 2 + 1) hx
  have hl : |sin (2 * π * ((frac turns : ℚ) : ℝ)) - sin ((angleApprox p turns : ℚ) : ℝ)|
      ≤ 3 / 16 * (1 / 2 ^ p) := (Real.abs_sin_sub_sin_le _ _).trans ha
  have hn : p + 25 ≤ 2 * ((p + 24) / 2 + 1) := by omega
  have hb : (2 : ℝ) ^ 20 / 4 ^ ((p + 24) / 2 + 1) ≤ 1 / 32 * (1 / 2 ^ p) := by
    rw [show (4 : ℝ) = 2 ^ 2 by norm_num, ← pow_mul]
    calc (2 : ℝ) ^ 20 / 2 ^ (2 * ((p + 24) / 2 + 1)) ≤ 2 ^ 20 / 2 ^ (p + 25) :=
          div_le_div_of_nonneg_left (by positivity) (by positivity) (pow_le_pow_right₀ (by norm_num) hn)
      _ = 1 / 32 * (1 / 2 ^ p) := by rw [pow_add]; norm_num; field_simp; norm_num
  have h2p : (0 : ℝ) < 1 / 2 ^ p := by positivity
  rw [← sin_frac]
  unfold sineApprox
  have := abs_sub_le (sin (2 * π * ((frac turns : ℚ) : ℝ))) (sin ((angleApprox p turns : ℚ) : ℝ))
    ((angleApprox p turns * sineNested (angleApprox p turns * angleApprox p turns) ((p + 24) / 2 + 1) 0 : ℚ) : ℝ)
  linarith

end Sys2Proof.Machine
end

