-- ==== Sys2Proof/Laws/Sign.lean ====
section
/-! SUPPORT. `ampSign` and `ampAbs` are exact: the sign and the magnitude of the real values. -/

namespace Sys2Proof.Machine

open Real

theorem coeffNorm_nonneg (a : Amp) : 0 ≤ coeffNorm a := by
  induction a with
  | nil => simp [coeffNorm]
  | cons t rest ih => exact add_nonneg (abs_nonneg _) ih

theorem ampApprox_error (p : Nat) (a : Amp) :
    |ampVal a - ((ampApprox p a : ℚ) : ℝ)| ≤ ((coeffNorm a / 2 ^ p : ℚ) : ℝ) := by
  induction a with
  | nil => simp [ampApprox, coeffNorm]
  | cons t rest ih =>
    have hs := sineApprox_error p t.turns
    simp only [ampApprox, coeffNorm, List.foldr_cons, ampVal_cons] at ih ⊢
    push_cast at ih ⊢
    rw [show (t.coeff : ℝ) * sin (2 * π * (t.turns : ℝ)) + ampVal rest
        - ((t.coeff : ℝ) * ((sineApprox p t.turns : ℚ) : ℝ)
          + ((List.foldr (fun t s => t.coeff * sineApprox p t.turns + s) 0 rest : ℚ) : ℝ))
      = (t.coeff : ℝ) * (sin (2 * π * (t.turns : ℝ)) - ((sineApprox p t.turns : ℚ) : ℝ))
        + (ampVal rest - ((List.foldr (fun t s => t.coeff * sineApprox p t.turns + s) 0 rest : ℚ) : ℝ)) by ring,
      add_div]
    refine (abs_add_le _ _).trans (add_le_add ?_ ih)
    rw [abs_mul, div_eq_mul_one_div]
    exact mul_le_mul_of_nonneg_left hs (abs_nonneg _)

/-- A sign other than 0 that an enclosure settles is the value's sign. -/
theorem signAt_sound (p : Nat) (a : Amp) (h : signAt p a ≠ 0) : signAt p a = SignType.sign (ampVal a) := by
  have he := ampApprox_error p a
  rw [abs_le] at he
  unfold signAt at h ⊢
  by_cases h1 : coeffNorm a / 2 ^ p < ampApprox p a
  · rw [if_pos h1]
    have h1' : ((coeffNorm a / 2 ^ p : ℚ) : ℝ) < ((ampApprox p a : ℚ) : ℝ) := by exact_mod_cast h1
    rw [sign_pos (by linarith [he.1])]
  · rw [if_neg h1] at h ⊢
    by_cases h2 : ampApprox p a < -(coeffNorm a / 2 ^ p)
    · rw [if_pos h2]
      have h2' : ((ampApprox p a : ℚ) : ℝ) < -((coeffNorm a / 2 ^ p : ℚ) : ℝ) := by exact_mod_cast h2
      rw [sign_neg (by linarith [he.2])]
    · rw [if_neg h2] at h
      exact absurd rfl h

/-- An enclosure that does not settle the sign bounds the value. -/
theorem abs_le_of_signAt_zero (p : Nat) (a : Amp) (h : signAt p a = 0) :
    |ampVal a| ≤ 2 * ((coeffNorm a / 2 ^ p : ℚ) : ℝ) := by
  have he := ampApprox_error p a
  unfold signAt at h
  by_cases h1 : coeffNorm a / 2 ^ p < ampApprox p a
  · rw [if_pos h1] at h; exact absurd h (by decide)
  · by_cases h2 : ampApprox p a < -(coeffNorm a / 2 ^ p)
    · rw [if_neg h1, if_pos h2] at h; exact absurd h (by decide)
    · have h1' : ((ampApprox p a : ℚ) : ℝ) ≤ ((coeffNorm a / 2 ^ p : ℚ) : ℝ) := by exact_mod_cast not_lt.mp h1
      have h2' : -((coeffNorm a / 2 ^ p : ℚ) : ℝ) ≤ ((ampApprox p a : ℚ) : ℝ) := by exact_mod_cast not_lt.mp h2
      rw [abs_le] at he ⊢
      constructor <;> linarith [he.1, he.2]

theorem signAt_gapPrecision (a : Amp) : signAt (gapPrecision a) a = SignType.sign (ampVal a) := by
  by_cases h : signAt (gapPrecision a) a = 0
  · have hle := abs_le_of_signAt_zero _ a h
    by_cases hv : ampVal a = 0
    · rw [h, hv]; simp
    · exfalso
      have hgap := ampVal_gap a hv
      have hD : (0 : ℝ) < coeffDen a := by exact_mod_cast coeffDen_pos a
      have hB : (gapBase a : ℝ) = 2 * (coeffDen a : ℝ) * ((coeffNorm a : ℚ) : ℝ) := by
        have := gapBase_eq a
        have h' : (((gapBase a : ℕ) : ℚ) : ℝ) = ((2 * coeffDen a * coeffNorm a : ℚ) : ℝ) := by rw [this]
        push_cast at h'
        exact h'
      have hBnn : (0 : ℝ) ≤ gapBase a := Nat.cast_nonneg _
      have hp : (0 : ℝ) < 2 ^ gapPrecision a := by positivity
      have hlt : (gapBase a : ℝ) < 2 ^ (Nat.log2 (gapBase a) + 1) := by exact_mod_cast Nat.lt_log2_self
      have hpow : (gapBase a : ℝ) ^ (turnsDen a + 1) * 4 ≤ 2 ^ gapPrecision a := by
        calc (gapBase a : ℝ) ^ (turnsDen a + 1) * 4
            ≤ (2 ^ (Nat.log2 (gapBase a) + 1)) ^ (turnsDen a + 1) * 4 := by
              gcongr
          _ = 2 ^ gapPrecision a := by
              rw [← pow_mul, show gapPrecision a = (Nat.log2 (gapBase a) + 1) * (turnsDen a + 1) + 2 by
                simp only [gapPrecision, gapBase]; ring, pow_add]
              norm_num
      have hmul : 2 * (coeffDen a : ℝ) * |ampVal a| * 2 ^ gapPrecision a ≤ 2 * gapBase a := by
        push_cast at hle
        rw [hB]
        have : |ampVal a| * 2 ^ gapPrecision a ≤ 2 * ((coeffNorm a : ℚ) : ℝ) := by
          rw [← mul_div_assoc, le_div_iff₀ hp] at hle
          exact hle
        nlinarith
      have hN : (0 : ℝ) ≤ (gapBase a : ℝ) ^ turnsDen a := by positivity
      have h1 : (2 : ℝ) ^ gapPrecision a ≤ 2 * gapBase a * (gapBase a : ℝ) ^ turnsDen a := by
        calc (2 : ℝ) ^ gapPrecision a
            ≤ (2 * (coeffDen a : ℝ) * |ampVal a| * (gapBase a : ℝ) ^ turnsDen a) * 2 ^ gapPrecision a :=
              le_mul_of_one_le_left hp.le hgap
          _ = (2 * (coeffDen a : ℝ) * |ampVal a| * 2 ^ gapPrecision a) * (gapBase a : ℝ) ^ turnsDen a := by ring
          _ ≤ _ := mul_le_mul_of_nonneg_right hmul hN
      rw [pow_succ] at hpow
      nlinarith
  · exact signAt_sound _ a h

theorem signOfSum_eq (a : Amp) : signOfSum a = SignType.sign (ampVal a) := by
  unfold signOfSum
  by_cases h : signAt firstPrecision a = 0
  · rw [if_pos h]; exact signAt_gapPrecision a
  · rw [if_neg h]; exact signAt_sound _ a h

theorem sin_firstQuarter_pos (t : Q) (h0 : 0 < t) (h1 : t ≤ 1/4) : 0 < sin (2 * π * (t : ℝ)) := by
  have h0' : (0 : ℝ) < (t : ℝ) := by exact_mod_cast h0
  have h1' : (t : ℝ) ≤ 1/4 := by have : ((t : ℚ) : ℝ) ≤ ((1/4 : ℚ) : ℝ) := by exact_mod_cast h1
                                 simpa using this
  have := Real.pi_pos
  exact sin_pos_of_pos_of_lt_pi (by positivity) (by nlinarith)

theorem ratSign_eq (q : Q) : ratSign q = SignType.sign ((q : ℚ) : ℝ) := by
  unfold ratSign
  rcases lt_trichotomy q 0 with h | h | h
  · have h' : ((q : ℚ) : ℝ) < 0 := by exact_mod_cast h
    rw [if_neg h.ne, if_neg h.not_gt, sign_neg h']
  · rw [if_pos h, h]; simp
  · have h' : (0 : ℝ) < ((q : ℚ) : ℝ) := by exact_mod_cast h
    rw [if_neg h.ne', if_pos h, sign_pos h']

/-- `ampSign` is the sign of the exact real value, zero included. -/
theorem ampSign_eq (a : Amp) : ampSign a = SignType.sign (ampVal a) := by
  match a with
  | [] => simp [ampSign]
  | [t] =>
    simp only [ampSign]
    by_cases h : 0 < t.turns ∧ t.turns ≤ 1/4
    · rw [if_pos h, ratSign_eq, ampVal_cons, ampVal_nil, add_zero, sign_mul,
        sign_pos (sin_firstQuarter_pos t.turns h.1 h.2), mul_one]
    · rw [if_neg h]; exact signOfSum_eq _
  | t :: u :: rest => exact signOfSum_eq _

@[simp] theorem ampVal_ampAbs (a : Amp) : ampVal (ampAbs a) = |ampVal a| := by
  unfold ampAbs
  rw [ampSign_eq]
  by_cases h : ampVal a < 0
  · rw [if_pos (sign_neg h), ampVal_ampScale, abs_of_neg h]; push_cast; ring
  · rw [if_neg (by rw [sign_eq_neg_one_iff]; exact h), abs_of_nonneg (not_lt.mp h)]

end Sys2Proof.Machine
end

