-- ==== Sys2Proof/Laws/Energy.lean ====
section
/-! SUPPORT. The arithmetic and the comparison of energies are those of the real numbers, whatever the given amplitudes are. -/

namespace Sys2Proof.Machine

@[simp] theorem energyVal_zero (x : Nat → ℝ) : (⟨[], []⟩ : Energy).val x = 0 := by simp [Energy.val]

@[simp] theorem energyVal_add (x : Nat → ℝ) (a b : Energy) : (energyAdd a b).val x = a.val x + b.val x := by
  simp only [Energy.val, energyAdd, ampVal_ampAdd, List.map_append, List.sum_append]; ring

@[simp] theorem energyVal_scale (x : Nat → ℝ) (q : Q) (e : Energy) : (energyScale q e).val x = (q : ℝ) * e.val x := by
  have h : ∀ l : List (Nat × Amp), ((l.map fun p => (p.1, ampScale q p.2)).map fun p => |x p.1| * ampVal p.2).sum
      = (q : ℝ) * (l.map fun p => |x p.1| * ampVal p.2).sum := by
    intro l
    induction l with
    | nil => simp
    | cons p l ih => simp only [List.map_cons, List.sum_cons, ih, ampVal_ampScale]; ring
  rw [Energy.val, energyScale, ampVal_ampScale, h, Energy.val, mul_add]

@[simp] theorem energyVal_sub (x : Nat → ℝ) (a b : Energy) : (energySub a b).val x = a.val x - b.val x := by
  rw [energySub, energyVal_add, energyVal_scale]; push_cast; ring

/-- Rule R108, one product, for every real sample. -/
@[simp] theorem energyVal_productMagnitude (g : GivenReals) (w : Sample) (r : Amp) :
    (productMagnitude w r).val g.amplitude = |w.val g * ampVal r| := by
  cases w <;> simp [productMagnitude, Energy.val, Sample.val, abs_mul]

theorem signOf_eq (g : GivenReals) (e : Energy) : GivenReals.signOf g e = SignType.sign (e.val g.amplitude) := by
  cases g with
  | silent => simp [GivenReals.signOf, ampSign_eq, Energy.val, GivenReals.amplitude]
  | of x sign exact => exact exact e

/-- The sign is that of the real number. -/
theorem energySign_eq (g : GivenReals) (e : Energy) : energySign g e = SignType.sign (e.val g.amplitude) := by
  obtain ⟨known, given⟩ := e
  cases given with
  | nil => simp [energySign, ampSign_eq, Energy.val]
  | cons p l => exact signOf_eq g _

/-- The comparison is that of the real numbers. -/
theorem energyLt_iff (g : GivenReals) (a b : Energy) : energyLt g a b = true ↔ a.val g.amplitude < b.val g.amplitude := by
  rw [energyLt, decide_eq_true_eq, energySign_eq, sign_eq_one_iff, energyVal_sub, sub_pos]

theorem energyVal_foldl_add (x : Nat → ℝ) (es : List Energy) (a : Energy) :
    (es.foldl energyAdd a).val x = a.val x + (es.map (Energy.val x)).sum := by
  induction es generalizing a with
  | nil => simp
  | cons e es ih => rw [List.foldl_cons, ih, energyVal_add, List.map_cons, List.sum_cons]; ring

/-- Every sequence of real numbers is a sequence of samples, for some choice of the given amplitudes. -/
theorem exists_samples (w : List ℝ) : ∃ (g : GivenReals) (xs : List Sample), xs.map (Sample.val g) = w :=
  ⟨.of (fun k => w.getD k 0) (fun e => SignType.sign (e.val fun k => w.getD k 0)) fun _ => rfl,
    (List.range w.length).map .given, by
      refine List.ext_getElem (by simp) fun k h _ => ?_
      have hk : k < w.length := by simpa using h
      simp [Sample.val, GivenReals.amplitude, hk]⟩

end Sys2Proof.Machine
end

