-- ==== Sys2Proof/Laws/Flags.lean ====
section
/-! SUPPORT. The two validity masks bit by bit, and the classification of a window as a ratio of its energies. -/

namespace Sys2Proof.Machine

theorem bits_of_mask6 (a b c d e f : Bool) :
    let m := BitVec.ofBool f ++ BitVec.ofBool e ++ BitVec.ofBool d ++ BitVec.ofBool c ++ BitVec.ofBool b ++ BitVec.ofBool a
    m.getLsbD 0 = a ∧ m.getLsbD 1 = b ∧ m.getLsbD 2 = c ∧ m.getLsbD 3 = d ∧ m.getLsbD 4 = e ∧ m.getLsbD 5 = f ∧
      (m = 0 ↔ (!a && !b && !c && !d && !e && !f) = true) := by
  cases a <;> cases b <;> cases c <;> cases d <;> cases e <;> cases f <;> decide

theorem bits_of_mask3 (a b c : Bool) :
    let m := BitVec.ofBool c ++ BitVec.ofBool b ++ BitVec.ofBool a
    m.getLsbD 0 = a ∧ m.getLsbD 1 = b ∧ m.getLsbD 2 = c ∧ (m = 0 ↔ (!a && !b && !c) = true) := by
  cases a <;> cases b <;> cases c <;> decide

/-- The mask of a configuration, bit by bit: one for each clause of rule R71. -/
theorem invalidMask_bits (c : Configuration) :
    (invalidMask c).getLsbD 0 = !decide (0 < c.sampleRate) ∧ (invalidMask c).getLsbD 1 = !decide (0 < c.bitDuration) ∧
    (invalidMask c).getLsbD 2 = !decide (0 < c.freqHigh) ∧ (invalidMask c).getLsbD 3 = !decide (0 < c.freqLow) ∧
    (invalidMask c).getLsbD 4 = !(decide (0 < c.thresholdFactor) && decide (c.thresholdFactor < 1)) ∧
    (invalidMask c).getLsbD 5 = (decide (0 < c.sampleRate) && decide (0 < c.bitDuration)
      && !decide (1 ≤ (c.sampleRate * c.bitDuration).floor)) := by
  obtain ⟨h0, h1, h2, h3, h4, h5, -⟩ := bits_of_mask6 (!decide (0 < c.sampleRate)) (!decide (0 < c.bitDuration))
    (!decide (0 < c.freqHigh)) (!decide (0 < c.freqLow)) (!(decide (0 < c.thresholdFactor) && decide (c.thresholdFactor < 1)))
    (decide (0 < c.sampleRate) && decide (0 < c.bitDuration) && !decide (1 ≤ (c.sampleRate * c.bitDuration).floor))
  exact ⟨h0, h1, h2, h3, h4, h5⟩

/-- A valid configuration, spelled out. -/
theorem invalidMask_eq_zero_iff (c : Configuration) :
    invalidMask c = 0 ↔ 0 < c.sampleRate ∧ 0 < c.bitDuration ∧ 0 < c.freqHigh ∧ 0 < c.freqLow ∧
      (0 < c.thresholdFactor ∧ c.thresholdFactor < 1) ∧ 1 ≤ ⌊c.sampleRate * c.bitDuration⌋ := by
  have h := (bits_of_mask6 (!decide (0 < c.sampleRate)) (!decide (0 < c.bitDuration))
    (!decide (0 < c.freqHigh)) (!decide (0 < c.freqLow)) (!(decide (0 < c.thresholdFactor) && decide (c.thresholdFactor < 1)))
    (decide (0 < c.sampleRate) && decide (0 < c.bitDuration)
      && !decide (1 ≤ (c.sampleRate * c.bitDuration).floor))).2.2.2.2.2.2
  have hf : (c.sampleRate * c.bitDuration).floor = ⌊c.sampleRate * c.bitDuration⌋ := rfl
  unfold invalidMask
  rw [h, ← hf]
  by_cases q0 : 0 < c.sampleRate <;> by_cases q1 : 0 < c.bitDuration <;> simp [q0, q1, and_assoc]

/-- The mask of `SYNTH`'s operands: a bit for each cause of rule R83. -/
theorem degenerateMask_bits (f d r : Q) :
    (degenerateMask f d r).getLsbD 0 = decide (f ≤ 0) ∧ (degenerateMask f d r).getLsbD 1 = decide (d ≤ 0) ∧
    (degenerateMask f d r).getLsbD 2 = decide (r ≤ 0) := by
  obtain ⟨h0, h1, h2, -⟩ := bits_of_mask3 (decide (f ≤ 0)) (decide (d ≤ 0)) (decide (r ≤ 0))
  exact ⟨h0, h1, h2⟩

theorem degenerateMask_eq_zero_iff (f d r : Q) : degenerateMask f d r = 0 ↔ 0 < f ∧ 0 < d ∧ 0 < r := by
  have h := (bits_of_mask3 (decide (f ≤ 0)) (decide (d ≤ 0)) (decide (r ≤ 0))).2.2.2
  unfold degenerateMask
  rw [h]
  simp [and_assoc]

theorem realClassify_self (factor e : ℝ) : realClassify factor e e = .ambig := by
  unfold realClassify
  rw [if_neg, if_neg] <;> rintro ⟨x, y⟩ <;> linarith

/-- Scaling both energies by a positive number changes no verdict. -/
theorem realClassify_scale {g : ℝ} (hg : 0 < g) (factor a b : ℝ) :
    realClassify factor (g * a) (g * b) = realClassify factor a b := by
  unfold realClassify
  rw [show factor * (g * a + g * b) = g * (factor * (a + b)) by ring]
  simp only [gt_iff_lt, mul_lt_mul_iff_right₀ hg]

/-- A window is `ONE` exactly when its high energy is more than the larger of the factor and its complement of the total. -/
theorem realClassify_eq_one_iff {f a b : ℝ} (ha : 0 ≤ a) (hb : 0 ≤ b) :
    realClassify f a b = .one ↔ 0 < a + b ∧ max f (1 - f) < a / (a + b) := by
  by_cases h : 0 < a + b
  · rw [max_lt_iff, lt_div_iff₀ h, lt_div_iff₀ h]
    unfold realClassify
    split_ifs with x y
    · simp [h]; constructor <;> linarith
    · simp; intro _ _; linarith
    · simp; intro _ z; by_contra hc; apply x; constructor <;> linarith
  · obtain rfl : a = 0 := by linarith
    obtain rfl : b = 0 := by linarith
    simp [realClassify_self]

/-- A window is `ZERO` exactly when its high energy is less than the smaller of the factor and its complement of the total. -/
theorem realClassify_eq_zero_iff {f a b : ℝ} (ha : 0 ≤ a) (hb : 0 ≤ b) :
    realClassify f a b = .zero ↔ 0 < a + b ∧ a / (a + b) < min f (1 - f) := by
  by_cases h : 0 < a + b
  · rw [lt_min_iff, div_lt_iff₀ h, div_lt_iff₀ h]
    unfold realClassify
    split_ifs with x y
    · simp; intro _ _; linarith
    · simp [h]; constructor <;> linarith
    · simp; intro _ z; by_contra hc; apply y; constructor <;> linarith
  · obtain rfl : a = 0 := by linarith
    obtain rfl : b = 0 := by linarith
    simp [realClassify_self]

end Sys2Proof.Machine
end

