-- ==== Sys2Proof/Laws/Tone.lean ====
section
/-! SUPPORT. Tones, bursts and waveforms. -/

namespace Sys2Proof.Machine

@[simp] theorem length_tone (f r : Q) (n : Nat) : (tone f r n).length = n := by simp [tone]

theorem getElem_tone (f r : Q) (n i : Nat) (h : i < (tone f r n).length) : (tone f r n)[i] = sinTone f i r := by simp [tone]

@[simp] theorem length_burst (c : Configuration) (l : Nat) (b : Bit) : (burst c l b).length = l := by simp [burst]

theorem burst_eq (c : Configuration) (l : Nat) (b : Bit) :
    burst c l b = tone (if b then c.freqHigh else c.freqLow) c.sampleRate l := rfl

/-- The real values of a tone are the reference tone. -/
theorem map_ampVal_tone (f r : Q) (n : Nat) : (tone f r n).map ampVal = realReference f r n := by
  simp [tone, realReference, ampVal_sinTone]

@[simp] theorem length_modulate (c : Configuration) (l : Nat) (bits : List Bit) :
    (modulate c l bits).length = bits.length * l := by
  induction bits with
  | nil => simp [modulate]
  | cons b bits ih =>
    simp only [modulate, List.flatMap_cons, List.length_append, length_burst, List.length_cons] at ih ⊢
    rw [ih, Nat.succ_mul, Nat.add_comm]

/-- Burst `n` is the slice `[n·L, (n+1)·L)` of the waveform (rule R95). -/
theorem slice_modulate (c : Configuration) (l : Nat) (bits : List Bit) (n : Nat) (hn : n < bits.length) :
    ((modulate c l bits).drop (n * l)).take l = burst c l bits[n] := by
  induction bits generalizing n with
  | nil => simp at hn
  | cons b bits ih =>
    have hb : (burst c l b).length = l := length_burst c l b
    cases n with
    | zero =>
      simp only [modulate, List.flatMap_cons, Nat.zero_mul, List.drop_zero, List.getElem_cons_zero]
      rw [List.take_append_of_le_length (by omega), List.take_of_length_le (by omega)]
    | succ n =>
      have hn : n < bits.length := by simpa using hn
      rw [List.getElem_cons_succ, ← ih n hn]
      simp only [modulate, List.flatMap_cons]
      rw [List.drop_append, List.drop_eq_nil_of_le (by rw [hb, Nat.succ_mul]; omega), List.nil_append, hb, Nat.succ_mul,
        Nat.add_sub_cancel]

/-- Sample `n·L + i` of a waveform (rule R94). -/
theorem getElem_modulate (c : Configuration) (l : Nat) (bits : List Bit) (n i : Nat) (hn : n < bits.length) (hi : i < l)
    (h : n * l + i < (modulate c l bits).length) :
    (modulate c l bits)[n * l + i] = sinTone (if bits[n] then c.freqHigh else c.freqLow) i c.sampleRate := by
  have hs := slice_modulate c l bits n hn
  have h1 : i < (((modulate c l bits).drop (n * l)).take l).length := by rw [hs, length_burst]; exact hi
  have h2 : (((modulate c l bits).drop (n * l)).take l)[i] = (modulate c l bits)[n * l + i] := by
    rw [List.getElem_take, List.getElem_drop]
  rw [← h2]
  simp only [hs]
  exact getElem_tone _ _ _ _ _

/-- The windows of a waveform are its bursts. -/
theorem tiles_modulate (c : Configuration) (l : Nat) (hl : 0 < l) (bits : List Bit) :
    tiles l (modulate c l bits) = bits.map (burst c l) := tiles_flatMap l hl _ (length_burst c l) bits

end Sys2Proof.Machine
end

