-- ==== Sys2Proof/Laws/Demodulator.lean ====
section
/-! SUPPORT. The verdict of a window is the verdict of its real samples in the exact reference. -/

namespace Sys2Proof.Machine

/-- Rule R108 in the exact reference. -/
theorem energyVal_energy (g : GivenReals) (w : List Sample) (ref : List Amp) :
    (energy w ref).val g.amplitude = realEnergy (w.map (Sample.val g)) (ref.map ampVal) := by
  rw [energy, energyVal_foldl_add, energyVal_zero, zero_add, realEnergy]
  congr 1
  induction w generalizing ref with
  | nil => simp
  | cons x w ih => cases ref with
    | nil => simp
    | cons y ref => simp [ih]

/-- Rules R109 and R111 in the exact reference. -/
theorem classify_eq (g : GivenReals) (factor : Q) (eh el : Energy) :
    classify g factor eh el = realClassify (factor : ℝ) (eh.val g.amplitude) (el.val g.amplitude) := by
  simp only [classify, realClassify, Bool.and_eq_true, energyLt_iff, energyVal_scale, energyVal_add, gt_iff_lt]

/-- The verdict of a window, computed or not, is the reference's on the real numbers its samples are. -/
theorem windowVerdict_eq (g : GivenReals) (c : Configuration) (l : Nat) (w : List Sample) :
    windowVerdict g c l w = realVerdict c l (w.map (Sample.val g)) := by
  rw [windowVerdict, classify_eq, energyVal_energy, energyVal_energy, realVerdict, burst_eq, burst_eq, map_ampVal_tone,
    map_ampVal_tone]
  rfl

/-- Samples that are written out are the reals of the tones they came from. -/
@[simp] theorem map_val_exact (g : GivenReals) (xs : List Amp) : (xs.map Sample.exact).map (Sample.val g) = xs.map ampVal := by
  simp [Function.comp_def, Sample.val]

theorem realEnergy_nonneg (w ref : List ℝ) : 0 ≤ realEnergy w ref := by
  unfold realEnergy
  refine List.sum_nonneg fun x hx => ?_
  obtain ⟨i, hi, rfl⟩ := List.getElem_of_mem hx
  rw [List.getElem_zipWith]
  exact abs_nonneg _

@[simp] theorem length_verdicts (g : GivenReals) (c : Configuration) (l : Nat) (xs : List Sample) :
    (verdicts g c l xs).length = xs.length / l := by simp [verdicts]

theorem getElem_verdicts (g : GivenReals) (c : Configuration) (l : Nat) (xs : List Sample) (j : Nat)
    (h : j < (verdicts g c l xs).length) :
    (verdicts g c l xs)[j] = realVerdict c l (((xs.drop (j * l)).take l).map (Sample.val g)) := by
  simp [verdicts, getElem_tiles, windowVerdict_eq]

/-! Energies in the exact reference. -/

theorem realEnergy_scale (g : ℝ) (w ref : List ℝ) : realEnergy (w.map (g * ·)) ref = |g| * realEnergy w ref := by
  unfold realEnergy
  induction w generalizing ref with
  | nil => simp
  | cons a w ih =>
    cases ref with
    | nil => simp
    | cons b ref =>
      simp only [List.map_cons, List.zipWith_cons_cons, List.sum_cons, ih]
      rw [mul_assoc, abs_mul]; ring

theorem realEnergy_zero {w : List ℝ} (h : ∀ a ∈ w, a = 0) (ref : List ℝ) : realEnergy w ref = 0 := by
  unfold realEnergy
  induction w generalizing ref with
  | nil => simp
  | cons a w ih =>
    cases ref with
    | nil => simp
    | cons b ref =>
      simp only [List.zipWith_cons_cons, List.sum_cons]
      rw [h a (by simp), ih (fun x hx => h x (by simp [hx]))]; simp

/-- A sample where the reference is zero counts for nothing. -/
theorem realEnergy_set (w ref : List ℝ) (k : Nat) (a : ℝ) (h : ∀ x, ref[k]? = some x → x = 0) :
    realEnergy (w.set k a) ref = realEnergy w ref := by
  unfold realEnergy
  induction w generalizing ref k with
  | nil => simp
  | cons b w ih =>
    cases ref with
    | nil => simp
    | cons c ref =>
      cases k with
      | zero => have := h c (by simp); simp [this]
      | succ k =>
        simp only [List.set_cons_succ, List.zipWith_cons_cons, List.sum_cons]
        rw [ih ref k (fun x hx => h x (by simpa using hx))]

theorem realReference_zero_at {f r : Q} {l k : Nat} (h : realTone f k r = 0) :
    ∀ x, (realReference f r l)[k]? = some x → x = 0 := by
  intro x hx
  rw [realReference, List.getElem?_map] at hx
  by_cases hk : k < l
  · rw [List.getElem?_range hk] at hx
    simp only [Option.map_some, Option.some.injEq] at hx
    rw [← hx]; exact h
  · rw [List.getElem?_eq_none (by simp; omega)] at hx
    cases hx

/-- A reference tone against itself: `A` and `B` of rule R119. -/
theorem realEnergy_self (f r : Q) (l : Nat) :
    realEnergy (realReference f r l) (realReference f r l) = tonePower f r l := by
  unfold realEnergy realReference tonePower
  congr 1
  rw [List.zipWith_map, List.zipWith_self]
  exact List.map_congr_left fun k _ => by rw [abs_mul_self]; ring

/-- One reference tone against the other: `C` of rule R119. -/
theorem realEnergy_high_low (c : Configuration) (l : Nat) :
    realEnergy (realReference c.freqHigh c.sampleRate l) (realReference c.freqLow c.sampleRate l) = toneOverlap c l := by
  unfold realEnergy realReference toneOverlap
  congr 1
  rw [List.zipWith_map, List.zipWith_self]

theorem realEnergy_low_high (c : Configuration) (l : Nat) :
    realEnergy (realReference c.freqLow c.sampleRate l) (realReference c.freqHigh c.sampleRate l) = toneOverlap c l := by
  unfold realEnergy realReference toneOverlap
  congr 1
  rw [List.zipWith_map, List.zipWith_self]
  exact List.map_congr_left fun k _ => by rw [mul_comm]

/-- The condition of rule R119 says that each clean burst gets its own bit's verdict. -/
theorem separatesTones_iff (g : GivenReals) (c : Configuration) (l : Nat) :
    SeparatesTones c l ↔
      windowVerdict g c l ((burst c l true).map .exact) = .one ∧
      windowVerdict g c l ((burst c l false).map .exact) = .zero := by
  rw [windowVerdict_eq, windowVerdict_eq, map_val_exact, map_val_exact, burst_eq, burst_eq, map_ampVal_tone, map_ampVal_tone]
  simp only [if_true, Bool.false_eq_true, if_false]
  have hA : 0 ≤ tonePower c.freqHigh c.sampleRate l := by rw [← realEnergy_self]; exact realEnergy_nonneg _ _
  have hB : 0 ≤ tonePower c.freqLow c.sampleRate l := by rw [← realEnergy_self]; exact realEnergy_nonneg _ _
  have hC : 0 ≤ toneOverlap c l := by rw [← realEnergy_high_low]; exact realEnergy_nonneg _ _
  rw [realVerdict, realVerdict, realEnergy_self, realEnergy_self, realEnergy_high_low, realEnergy_low_high,
    realClassify_eq_one_iff hA hC, realClassify_eq_zero_iff hC hB, add_comm (toneOverlap c l) (tonePower c.freqLow _ _)]
  unfold SeparatesTones
  tauto

theorem length_pos_of_separatesTones {c : Configuration} {l : Nat} (h : SeparatesTones c l) : 0 < l := by
  rcases Nat.eq_zero_or_pos l with rfl | h'
  · have := h.1
    simp [tonePower, toneOverlap] at this
  · exact h'

end Sys2Proof.Machine
end

