-- ==== Sys2Proof/Laws/Form.lean ====
section
/-! SUPPORT. Every operation on amplitudes keeps the form of `WellFormed.lean`, and the samples of a tone are written in one
way only: equal reals are equal data. -/

namespace Sys2Proof.Machine

open Real

/-- A phase a term may stand on. -/
def phaseOk (x : Q) : Prop := 0 < x ∧ x ≤ 1/4 ∧ x ≠ 1/12

theorem termWf_iff (t : Term) : t.wf = true ↔ t.coeff ≠ 0 ∧ phaseOk t.turns := by simp [Term.wf, phaseOk]

theorem ampWf_cons (t : Term) (a : Amp) :
    Amp.wf (t :: a) = true ↔ t.coeff ≠ 0 ∧ phaseOk t.turns ∧ (∀ u ∈ a, t.turns < u.turns) ∧ Amp.wf a = true := by
  rw [Amp.wf, Bool.and_eq_true, Bool.and_eq_true, termWf_iff, List.all_eq_true]
  simp only [decide_eq_true_eq]
  tauto

@[simp] theorem ampWf_nil : Amp.wf [] = true := rfl

theorem mem_addTerm {t u : Term} {a : Amp} (h : u ∈ addTerm t a) : u.turns = t.turns ∨ ∃ v ∈ a, v.turns = u.turns := by
  induction a with
  | nil =>
    unfold addTerm at h
    split at h <;> simp at h
    left; rw [h]
  | cons v rest ih =>
    unfold addTerm at h
    split at h
    · split at h
      · right; exact ⟨u, h, rfl⟩
      · rcases List.mem_cons.mp h with rfl | h
        · left; rfl
        · right; exact ⟨u, h, rfl⟩
    · split at h
      · split at h
        · right; exact ⟨u, List.mem_cons_of_mem _ h, rfl⟩
        · rcases List.mem_cons.mp h with rfl | h
          · right; exact ⟨v, by simp, rfl⟩
          · right; exact ⟨u, List.mem_cons_of_mem _ h, rfl⟩
      · rcases List.mem_cons.mp h with rfl | h
        · right; exact ⟨u, by simp, rfl⟩
        · rcases ih h with h | ⟨w, hw, h⟩
          · left; exact h
          · right; exact ⟨w, List.mem_cons_of_mem _ hw, h⟩

theorem ampWf_addTerm (t : Term) (a : Amp) (ht : phaseOk t.turns) (ha : Amp.wf a = true) : Amp.wf (addTerm t a) = true := by
  induction a with
  | nil =>
    unfold addTerm
    split
    · rfl
    · rename_i h; rw [ampWf_cons]; exact ⟨h, ht, by simp, rfl⟩
  | cons u rest ih =>
    obtain ⟨hu, hup, hlt, hr⟩ := (ampWf_cons u rest).mp ha
    unfold addTerm
    split
    · rename_i h1
      split
      · exact ha
      · rename_i h
        rw [ampWf_cons]
        refine ⟨h, ht, fun v hv => ?_, ha⟩
        rcases List.mem_cons.mp hv with rfl | hv
        · exact h1
        · exact h1.trans (hlt v hv)
    · rename_i h1
      split
      · rename_i h2
        split
        · exact hr
        · rename_i h; rw [ampWf_cons]; exact ⟨h, hup, hlt, hr⟩
      · rename_i h2
        rw [ampWf_cons]
        refine ⟨hu, hup, fun v hv => ?_, ih hr⟩
        rcases mem_addTerm hv with h | ⟨w, hw, h⟩
        · rw [h]; exact lt_of_le_of_ne (not_lt.mp h1) (Ne.symm h2)
        · rw [← h]; exact hlt w hw

theorem ampWf_ampAdd (a b : Amp) (ha : Amp.wf a = true) (hb : Amp.wf b = true) : Amp.wf (ampAdd a b) = true := by
  induction a with
  | nil => exact hb
  | cons t rest ih =>
    obtain ⟨-, hp, -, hr⟩ := (ampWf_cons t rest).mp ha
    exact ampWf_addTerm t _ hp (ih hr)

theorem ampWf_ampScale (q : Q) (a : Amp) (ha : Amp.wf a = true) : Amp.wf (ampScale q a) = true := by
  unfold ampScale
  split
  · rfl
  · rename_i hq
    induction a with
    | nil => rfl
    | cons t rest ih =>
      obtain ⟨hc, hp, hlt, hr⟩ := (ampWf_cons t rest).mp ha
      rw [List.map_cons, ampWf_cons]
      refine ⟨mul_ne_zero hq hc, hp, fun u hu => ?_, ih hr⟩
      obtain ⟨v, hv, rfl⟩ := List.mem_map.mp hu
      exact hlt v hv

theorem ampWf_ampAbs (a : Amp) (ha : Amp.wf a = true) : Amp.wf (ampAbs a) = true := by
  unfold ampAbs
  split
  · exact ampWf_ampScale _ _ ha
  · exact ha

theorem phaseOk_quarter : phaseOk (1/4) := by unfold phaseOk; norm_num

theorem ampWf_ampOfRat (q : Q) : Amp.wf (ampOfRat q) = true := ampWf_addTerm _ _ phaseOk_quarter rfl

theorem foldPhase_bounds {φ : Q} (h0 : 0 ≤ φ) (h1 : φ < 1/2) (hz : φ ≠ 0) : 0 < foldPhase φ ∧ foldPhase φ ≤ 1/4 := by
  have := lt_of_le_of_ne h0 (Ne.symm hz)
  unfold foldPhase
  split
  · exact ⟨this, by assumption⟩
  · rename_i h; have := not_le.mp h; constructor <;> linarith

theorem ampWf_sineHalfTurn (c φ : Q) (h0 : 0 ≤ φ) (h1 : φ < 1/2) : Amp.wf (sineHalfTurn c φ) = true := by
  unfold sineHalfTurn
  split
  · rfl
  · rename_i hz
    obtain ⟨hp, hq⟩ := foldPhase_bounds h0 h1 hz
    split
    · exact ampWf_addTerm ⟨c / 2, 1/4⟩ [] phaseOk_quarter ampWf_nil
    · rename_i h12; exact ampWf_addTerm ⟨c, foldPhase φ⟩ [] ⟨hp, hq, h12⟩ ampWf_nil

theorem ampWf_ampSine (c turns : Q) : Amp.wf (ampSine c turns) = true := by
  obtain ⟨h0, h1⟩ := frac_bounds turns
  unfold ampSine
  split
  · exact ampWf_sineHalfTurn _ _ h0 (by assumption)
  · rename_i h; exact ampWf_sineHalfTurn _ _ (by linarith [not_lt.mp h]) (by linarith)

theorem ampWf_termMul (s t : Term) : Amp.wf (termMul s t) = true :=
  ampWf_ampAdd _ _ (ampWf_ampSine _ _) (ampWf_ampSine _ _)

theorem ampWf_ampMul (a b : Amp) : Amp.wf (ampMul a b) = true := by
  unfold ampMul
  induction a with
  | nil => rfl
  | cons s rest ih =>
    rw [List.foldr_cons]
    generalize List.foldr _ [] rest = acc at ih ⊢
    induction b with
    | nil => exact ih
    | cons t b ihb => exact ampWf_ampAdd _ _ (ampWf_termMul s t) ihb

/-- Every sample the block produces is in form. -/
theorem ampWf_sinTone (f : Q) (i : Nat) (r : Q) : Amp.wf (sinTone f i r) = true := ampWf_ampSine _ _

theorem ampWf_of_mem_tone {f r : Q} {n : Nat} {a : Amp} (h : a ∈ tone f r n) : Amp.wf a = true := by
  obtain ⟨i, -, rfl⟩ := List.mem_map.mp h
  exact ampWf_sinTone _ _ _

theorem ampWf_of_mem_modulate {c : Configuration} {l : Nat} {bits : List Bit} {a : Amp} (h : a ∈ modulate c l bits) :
    Amp.wf a = true := by
  obtain ⟨b, -, hb⟩ := List.mem_flatMap.mp h
  exact ampWf_of_mem_tone hb

/-- A sample of a tone, as a real number, lies in `[-1, 1]`. -/
theorem abs_ampVal_sinTone_le (f : Q) (i : Nat) (r : Q) : |ampVal (sinTone f i r)| ≤ 1 := by
  rw [ampVal_sinTone]; exact Real.abs_sin_le_one _

theorem abs_ampVal_le_of_mem_tone {f r : Q} {n : Nat} {a : Amp} (h : a ∈ tone f r n) : |ampVal a| ≤ 1 := by
  obtain ⟨i, -, rfl⟩ := List.mem_map.mp h
  exact abs_ampVal_sinTone_le _ _ _

theorem abs_ampVal_le_of_mem_modulate {c : Configuration} {l : Nat} {bits : List Bit} {a : Amp}
    (h : a ∈ modulate c l bits) : |ampVal a| ≤ 1 := by
  obtain ⟨b, -, hb⟩ := List.mem_flatMap.mp h
  exact abs_ampVal_le_of_mem_tone hb

/-! One real value, one way to write it. -/

theorem sin_strictMono_quarter {x y : Q} (hx : 0 < x) (hy : y ≤ 1/4) (h : x < y) :
    sin (2 * π * (x : ℝ)) < sin (2 * π * (y : ℝ)) := by
  have hx' : (0 : ℝ) < (x : ℝ) := by exact_mod_cast hx
  have hy' : (y : ℝ) ≤ 1/4 := by have : ((y : ℚ) : ℝ) ≤ ((1/4 : ℚ) : ℝ) := by exact_mod_cast hy
                                 simpa using this
  have h' : (x : ℝ) < (y : ℝ) := by exact_mod_cast h
  have := Real.pi_pos
  exact Real.strictMonoOn_sin ⟨by nlinarith, by nlinarith⟩ ⟨by nlinarith, by nlinarith⟩ (by nlinarith)

theorem sin_injective_quarter {x y : Q} (hx0 : 0 < x) (hx : x ≤ 1/4) (hy0 : 0 < y) (hy : y ≤ 1/4)
    (h : sin (2 * π * (x : ℝ)) = sin (2 * π * (y : ℝ))) : x = y := by
  rcases lt_trichotomy x y with hlt | heq | hgt
  · exact absurd h (sin_strictMono_quarter hx0 hy hlt).ne
  · exact heq
  · exact absurd h (sin_strictMono_quarter hy0 hx hgt).ne'

/-- The three ways a sample of unit amplitude can be written. -/
theorem ampSine_one_cases (turns : Q) :
    ampSine 1 turns = [] ∨
    (∃ c : Q, (c = 1 ∨ c = -1) ∧ ampSine 1 turns = [⟨c / 2, 1/4⟩]) ∨
    (∃ c x : Q, (c = 1 ∨ c = -1) ∧ phaseOk x ∧ ampSine 1 turns = [⟨c, x⟩]) := by
  obtain ⟨h0, h1⟩ := frac_bounds turns
  have key : ∀ d φ : Q, (d = 1 ∨ d = -1) → 0 ≤ φ → φ < 1/2 →
      sineHalfTurn d φ = [] ∨ (∃ c : Q, (c = 1 ∨ c = -1) ∧ sineHalfTurn d φ = [⟨c / 2, 1/4⟩]) ∨
      (∃ c x : Q, (c = 1 ∨ c = -1) ∧ phaseOk x ∧ sineHalfTurn d φ = [⟨c, x⟩]) := by
    intro d φ hd hφ0 hφ1
    have hd0 : d ≠ 0 := by rcases hd with rfl | rfl <;> norm_num
    unfold sineHalfTurn
    split
    · left; rfl
    · rename_i hz
      obtain ⟨hp, hq⟩ := foldPhase_bounds hφ0 hφ1 hz
      split
      · right; left
        exact ⟨d, hd, by simp [addTerm, hd0]⟩
      · rename_i h12
        right; right
        exact ⟨d, foldPhase φ, hd, ⟨hp, hq, h12⟩, by simp [addTerm, hd0]⟩
  unfold ampSine
  split
  · exact key 1 _ (.inl rfl) h0 (by assumption)
  · rename_i h; exact key (-1) _ (.inr rfl) (by linarith [not_lt.mp h]) (by linarith)

/-- Samples of tones that are equal as real numbers are equal as data. -/
theorem ampSine_one_injective (x y : Q) (h : ampVal (ampSine 1 x) = ampVal (ampSine 1 y)) : ampSine 1 x = ampSine 1 y := by
  have hhalf : ∀ c : Q, ampVal [⟨c / 2, 1/4⟩] = (c : ℝ) / 2 := fun c => by
    rw [ampVal_cons, ampVal_nil, sin_quarter]; push_cast; ring
  have hone : ∀ c z : Q, ampVal [⟨c, z⟩] = (c : ℝ) * sin (2 * π * (z : ℝ)) := fun c z => by simp
  have hpos : ∀ z : Q, phaseOk z → 0 < sin (2 * π * (z : ℝ)) := fun z hz => sin_firstQuarter_pos z hz.1 hz.2.1
  have hne : ∀ z : Q, phaseOk z → sin (2 * π * (z : ℝ)) ≠ 1 / 2 := fun z hz he =>
    hz.2.2 (sin_injective_quarter hz.1 hz.2.1 (by norm_num) (by norm_num) (he.trans sin_twelfth.symm))
  rcases ampSine_one_cases x with hx | ⟨c, hc, hx⟩ | ⟨c, z, hc, hz, hx⟩ <;>
  rcases ampSine_one_cases y with hy | ⟨d, hd, hy⟩ | ⟨d, w, hd, hw, hy⟩ <;>
  rw [hx, hy] at h ⊢
  · rw [hhalf, ampVal_nil] at h; rcases hd with rfl | rfl <;> norm_num at h
  · rw [hone, ampVal_nil] at h
    have := hpos w hw
    rcases hd with rfl | rfl <;> norm_num at h <;> linarith
  · rw [hhalf, ampVal_nil] at h; rcases hc with rfl | rfl <;> norm_num at h
  · rw [hhalf, hhalf] at h; rcases hc with rfl | rfl <;> rcases hd with rfl | rfl <;> first | rfl | norm_num at h
  · rw [hhalf, hone] at h
    have h1 := hpos w hw
    have h2 := hne w hw
    rcases hc with rfl | rfl <;> rcases hd with rfl | rfl <;> push_cast at h
    · exact absurd (by linarith) h2
    · linarith
    · linarith
    · exact absurd (by linarith) h2
  · rw [hone, ampVal_nil] at h
    have := hpos z hz
    rcases hc with rfl | rfl <;> norm_num at h <;> linarith
  · rw [hone, hhalf] at h
    have h1 := hpos z hz
    have h2 := hne z hz
    rcases hc with rfl | rfl <;> rcases hd with rfl | rfl <;> push_cast at h
    · exact absurd (by linarith) h2
    · linarith
    · linarith
    · exact absurd (by linarith) h2
  · rw [hone, hone] at h
    have h1 := hpos z hz
    have h2 := hpos w hw
    have hzw : c = d ∧ sin (2 * π * (z : ℝ)) = sin (2 * π * (w : ℝ)) := by
      rcases hc with rfl | rfl <;> rcases hd with rfl | rfl <;> push_cast at h
      · exact ⟨rfl, by linarith⟩
      · linarith
      · linarith
      · exact ⟨rfl, by linarith⟩
    rw [hzw.1, sin_injective_quarter hz.1 hz.2.1 hw.1 hw.2.1 hzw.2]

end Sys2Proof.Machine
end

