-- ==== Sys2Proof/Laws/State.lean ====
section
/-! SUPPORT. One lemma per field of `State` and update of it, so that no later proof unfolds a record update. -/

namespace Sys2Proof.Machine

@[simp] theorem State.deliver_config (s : State) (es : List Emission) : (s.deliver es).config = s.config := rfl
@[simp] theorem State.deliver_samplesPerSymbol (s : State) (es : List Emission) : (s.deliver es).samplesPerSymbol = s.samplesPerSymbol := rfl
@[simp] theorem State.deliver_mode (s : State) (es : List Emission) : (s.deliver es).mode = s.mode := rfl
@[simp] theorem State.deliver_res (s : State) (es : List Emission) : (s.deliver es).res = s.res := rfl
@[simp] theorem State.deliver_text (s : State) (es : List Emission) : (s.deliver es).text = s.text := rfl
@[simp] theorem State.deliver_out (s : State) (es : List Emission) : (s.deliver es).out = es := rfl
@[simp] theorem State.deliver_pending (s : State) (es : List Emission) : (s.deliver es).pending = s.pending := rfl
@[simp] theorem State.deliver_build (s : State) (es : List Emission) : (s.deliver es).build = s.build := rfl

@[simp] theorem State.clearAssembler_config (s : State) : (s.clearAssembler).config = s.config := rfl
@[simp] theorem State.clearAssembler_samplesPerSymbol (s : State) : (s.clearAssembler).samplesPerSymbol = s.samplesPerSymbol := rfl
@[simp] theorem State.clearAssembler_mode (s : State) : (s.clearAssembler).mode = s.mode := rfl
@[simp] theorem State.clearAssembler_res (s : State) : (s.clearAssembler).res = [] := rfl
@[simp] theorem State.clearAssembler_text (s : State) : (s.clearAssembler).text = [] := rfl
@[simp] theorem State.clearAssembler_out (s : State) : (s.clearAssembler).out = s.out := rfl
@[simp] theorem State.clearAssembler_pending (s : State) : (s.clearAssembler).pending = s.pending := rfl
@[simp] theorem State.clearAssembler_build (s : State) : (s.clearAssembler).build = s.build := rfl

@[simp] theorem State.hardwareReset_config (s : State) (k : Nat) : (s.hardwareReset k).config = Configuration.unloaded := rfl
@[simp] theorem State.hardwareReset_samplesPerSymbol (s : State) (k : Nat) : (s.hardwareReset k).samplesPerSymbol = 0 := rfl
@[simp] theorem State.hardwareReset_mode (s : State) (k : Nat) : (s.hardwareReset k).mode = .unconfigured := rfl
@[simp] theorem State.hardwareReset_res (s : State) (k : Nat) : (s.hardwareReset k).res = [] := rfl
@[simp] theorem State.hardwareReset_text (s : State) (k : Nat) : (s.hardwareReset k).text = [] := rfl
@[simp] theorem State.hardwareReset_out (s : State) (k : Nat) : (s.hardwareReset k).out = s.out.take k := rfl
@[simp] theorem State.hardwareReset_pending (s : State) (k : Nat) : (s.hardwareReset k).pending = s.pending := rfl
@[simp] theorem State.hardwareReset_build (s : State) (k : Nat) : (s.hardwareReset k).build = s.build := rfl

@[simp] theorem State.loadConfig_config (s : State) (c : Configuration) : (s.loadConfig c).config = c := rfl
@[simp] theorem State.loadConfig_samplesPerSymbol (s : State) (c : Configuration) : (s.loadConfig c).samplesPerSymbol = samplesPerSymbolOf c := rfl
@[simp] theorem State.loadConfig_mode (s : State) (c : Configuration) : (s.loadConfig c).mode = .ready := rfl
@[simp] theorem State.loadConfig_res (s : State) (c : Configuration) : (s.loadConfig c).res = s.res := rfl
@[simp] theorem State.loadConfig_text (s : State) (c : Configuration) : (s.loadConfig c).text = s.text := rfl
@[simp] theorem State.loadConfig_out (s : State) (c : Configuration) : (s.loadConfig c).out = [] := rfl
@[simp] theorem State.loadConfig_pending (s : State) (c : Configuration) : (s.loadConfig c).pending = s.pending := rfl
@[simp] theorem State.loadConfig_build (s : State) (c : Configuration) : (s.loadConfig c).build = s.build := rfl

@[simp] theorem State.fed_config (s : State) (bits : List Bit) : (s.fed bits).config = s.config := rfl
@[simp] theorem State.fed_samplesPerSymbol (s : State) (bits : List Bit) : (s.fed bits).samplesPerSymbol = s.samplesPerSymbol := rfl
@[simp] theorem State.fed_mode (s : State) (bits : List Bit) : (s.fed bits).mode = s.mode := rfl
@[simp] theorem State.fed_res (s : State) (bits : List Bit) : (s.fed bits).res = (assemble s.build (s.res ++ bits) s.text).1 := rfl
@[simp] theorem State.fed_text (s : State) (bits : List Bit) : (s.fed bits).text = (assemble s.build (s.res ++ bits) s.text).2.1 := rfl
@[simp] theorem State.fed_out (s : State) (bits : List Bit) : (s.fed bits).out = (assemble s.build (s.res ++ bits) s.text).2.2 := rfl
@[simp] theorem State.fed_pending (s : State) (bits : List Bit) : (s.fed bits).pending = s.pending := rfl
@[simp] theorem State.fed_build (s : State) (bits : List Bit) : (s.fed bits).build = s.build := rfl

@[simp] theorem State.raise_config (s : State) (e : BlockError) : (s.raise e).config = s.config := by cases e <;> rfl
@[simp] theorem State.raise_samplesPerSymbol (s : State) (e : BlockError) : (s.raise e).samplesPerSymbol = s.samplesPerSymbol := by cases e <;> rfl
@[simp] theorem State.raise_res (s : State) (e : BlockError) : (s.raise e).res = s.res := by cases e <;> rfl
@[simp] theorem State.raise_text (s : State) (e : BlockError) : (s.raise e).text = s.text := by cases e <;> rfl
@[simp] theorem State.raise_pending (s : State) (e : BlockError) : (s.raise e).pending = s.pending := by cases e <;> rfl
@[simp] theorem State.raise_build (s : State) (e : BlockError) : (s.raise e).build = s.build := by cases e <;> rfl
@[simp] theorem State.raise_out (s : State) (e : BlockError) : (s.raise e).out = s.out ++ [.error e] := by cases e <;> rfl
@[simp] theorem State.raise_configurationError_mode (s : State) (m : BitVec 6) :
    (s.raise (.configurationError m)).mode = .failed := rfl
@[simp] theorem State.raise_invalidParameter_mode (s : State) (m : BitVec 3) :
    (s.raise (.invalidParameter m)).mode = s.mode := rfl
@[simp] theorem State.raise_invalidByte_mode (s : State) (v : Byte) : (s.raise (.invalidByte v)).mode = s.mode := rfl

@[simp] theorem State.deliver_deliver (s : State) (es fs : List Emission) : (s.deliver es).deliver fs = s.deliver fs := rfl

end Sys2Proof.Machine
end

