-- ==== Sys2Proof/Laws/Ops.lean ====
section
/-! SUPPORT. What each shared operation, and each meaning, can answer: one lemma each, cited in place of unfolding it. -/

namespace Sys2Proof.Machine

/-! Acceptance. -/

theorem whenReady_of_ready {s : State} (h : s.mode = .ready) (r : Result) : s.whenReady r = r := by
  simp [State.whenReady, h]

theorem whenReady_of_not_ready {s : State} (h : s.mode ≠ .ready) (r : Result) : s.whenReady r = .fault (.notReady s.mode) := by
  cases hm : s.mode <;> simp_all [State.whenReady]

/-- What accepting an operation in `Ready` can answer. -/
theorem whenReady_next {s t : State} {r : Result} (h : s.whenReady r = .next t) : s.mode = .ready ∧ r = .next t := by
  cases hm : s.mode <;> simp_all [State.whenReady]

theorem whenUnconfigured_of_unconfigured {s : State} (h : s.mode = .unconfigured) (r : Result) :
    s.whenUnconfigured r = r := by simp [State.whenUnconfigured, h]

theorem whenUnconfigured_of_configured {s : State} (h : s.mode ≠ .unconfigured) (r : Result) :
    s.whenUnconfigured r = .fault (.configurationFixed s.mode) := by
  cases hm : s.mode <;> simp_all [State.whenUnconfigured]

theorem whenUnconfigured_next {s t : State} {r : Result} (h : s.whenUnconfigured r = .next t) :
    s.mode = .unconfigured ∧ r = .next t := by
  cases hm : s.mode <;> simp_all [State.whenUnconfigured]

/-! Two operations back to back. -/

/-- A next state of the pair is the second one's, with both deliveries. -/
theorem thenIssue_next {first : Result} {second : State → Result} {u : State} (h : thenIssue first second = .next u) :
    ∃ s t, first = .next s ∧ second s = .next t ∧ u = t.deliver (s.out ++ t.out) := by
  cases first with
  | fault f => simp [thenIssue] at h
  | refused r => simp [thenIssue] at h
  | next s =>
    cases ht : second s with
    | fault f => simp [thenIssue, ht] at h
    | refused r => simp [thenIssue, ht] at h
    | next t => exact ⟨s, t, rfl, ht, by simpa [thenIssue, ht] using h.symm⟩

theorem thenIssue_of_next {s t : State} {second : State → Result} (h : second s = .next t) :
    thenIssue (.next s) second = .next (t.deliver (s.out ++ t.out)) := by simp [thenIssue, h]

/-! The meanings in the mode that accepts them. -/

theorem execCfg_valid {s : State} (h : s.mode = .unconfigured) {sr bd fh fl tf : Q}
    (hv : invalidMask ⟨sr, bd, fh, fl, tf⟩ = 0) : execCfg sr bd fh fl tf s = .next (s.loadConfig ⟨sr, bd, fh, fl, tf⟩) := by
  rw [execCfg, whenUnconfigured_of_unconfigured h, if_pos hv]

theorem execCfg_invalid {s : State} (h : s.mode = .unconfigured) {sr bd fh fl tf : Q}
    (hv : invalidMask ⟨sr, bd, fh, fl, tf⟩ ≠ 0) :
    execCfg sr bd fh fl tf s
      = .next ((s.deliver []).raise (.configurationError (invalidMask ⟨sr, bd, fh, fl, tf⟩))) := by
  rw [execCfg, whenUnconfigured_of_unconfigured h, if_neg hv]

theorem execSynth_positive {s : State} (h : s.mode = .ready) {f d r : Q} (hm : degenerateMask f d r = 0) :
    execSynth f d r s = .next (s.deliver ((tone f r (toneLength d r)).map .sample)) := by
  rw [execSynth, whenReady_of_ready h, if_pos hm]

theorem execSynth_degenerate {s : State} (h : s.mode = .ready) {f d r : Q} (hm : degenerateMask f d r ≠ 0) :
    execSynth f d r s = .next ((s.deliver []).raise (.invalidParameter (degenerateMask f d r))) := by
  rw [execSynth, whenReady_of_ready h, if_neg hm]

theorem execEnc_ready {s : State} (h : s.mode = .ready) (m : List Byte) :
    execEnc m s = .next (s.deliver ((encodeMessage s.build.encPolicy m).map .bit)) := whenReady_of_ready h _

theorem execMod_ready {s : State} (h : s.mode = .ready) (bits : List Bit) :
    execMod bits s = .next (s.deliver ((modulate s.config s.samplesPerSymbol bits).map .sample)) := whenReady_of_ready h _

theorem execDemod_ready {s : State} (h : s.mode = .ready) (xs : List Sample) :
    execDemod xs s = .next (s.deliver ((verdicts Config.givenReals s.config s.samplesPerSymbol xs).flatMap verdictEmissions)) :=
  whenReady_of_ready h _

theorem execFeed_fits {s : State} (h : s.mode = .ready) {bits : List Bit}
    (hf : fitsText s.build (s.res ++ bits) s.text = true) : execFeed bits s = .next (s.fed bits) := by
  rw [execFeed, whenReady_of_ready h, if_pos hf]

theorem execFeed_overflow {s : State} (h : s.mode = .ready) {bits : List Bit}
    (hf : fitsText s.build (s.res ++ bits) s.text = false) : execFeed bits s = .refused .textCapacity := by
  rw [execFeed, whenReady_of_ready h, if_neg (by simp [hf])]

theorem execArst_ready {s : State} (h : s.mode = .ready) : execArst s = .next (s.clearAssembler.deliver []) :=
  whenReady_of_ready h _

theorem execTx_ready {s : State} (h : s.mode = .ready) (m : List Byte) :
    execTx m s = .next (s.deliver ((encodeMessage s.build.encPolicy m).map .bit
      ++ (modulate s.config s.samplesPerSymbol (encodeMessage s.build.encPolicy m)).map .sample)) := by
  rw [execTx, execEnc_ready h]
  refine (thenIssue_of_next (execMod_ready (by simpa using h) _)).trans ?_
  simp

theorem execRx_fits {s : State} (h : s.mode = .ready) {xs : List Sample}
    (hf : fitsText s.build (s.res ++ demodBits Config.givenReals s.config s.samplesPerSymbol xs) s.text = true) :
    execRx xs s = .next ((s.fed (demodBits Config.givenReals s.config s.samplesPerSymbol xs)).deliver
      ((verdicts Config.givenReals s.config s.samplesPerSymbol xs).flatMap verdictEmissions
        ++ (s.fed (demodBits Config.givenReals s.config s.samplesPerSymbol xs)).out)) := by
  rw [execRx, execDemod_ready h]
  refine (thenIssue_of_next (execFeed_fits (by simpa using h) (by simpa [demodBits] using hf))).trans ?_
  simp [State.fed, State.deliver, demodBits]

theorem execRx_overflow {s : State} (h : s.mode = .ready) {xs : List Sample}
    (hf : fitsText s.build (s.res ++ demodBits Config.givenReals s.config s.samplesPerSymbol xs) s.text = false) :
    execRx xs s = .refused .textCapacity := by
  rw [execRx, execDemod_ready h]
  have := execFeed_overflow (s := s.deliver ((verdicts Config.givenReals s.config s.samplesPerSymbol xs).flatMap verdictEmissions))
    (bits := demodBits Config.givenReals s.config s.samplesPerSymbol xs) (by simpa using h) (by simpa using hf)
  simp only [thenIssue, State.deliver_out, bitOut_verdicts]
  rw [demodBits] at this
  rw [this]

/-! `exec` and `step`. -/

/-- `exec` does not read what the last operation delivered. -/
theorem exec_deliver (i : Instr) (s : State) (es : List Emission) : exec i (s.deliver es) = exec i s := by
  cases i <;> rfl

/-- What a step can be: nothing to do, an operation, or a reset, each on the state without its move. -/
theorem step_next {s t : State} (h : step s = .next t) :
    (s.pending = [] ∧ t = s) ∨
    (∃ i mv rest, s.pending = mv :: rest ∧ takeMove s = .operation i { s with pending := rest }
      ∧ exec i { s with pending := rest } = .next t) ∨
    (∃ k rest, s.pending = .reset k :: rest ∧ t = ({ s with pending := rest } : State).hardwareReset k) := by
  cases hp : s.pending with
  | nil => left; simpa [step, takeMove, hp, eq_comm] using h
  | cons mv rest =>
    right
    cases mv with
    | reset k => right; exact ⟨k, rest, rfl, by simpa [step, takeMove, hp, eq_comm] using h⟩
    | request r => left; exact ⟨decode r, _, rest, rfl, by simp [takeMove, hp], by simpa [step, takeMove, hp] using h⟩
    | transmit m => left; exact ⟨.tx m, _, rest, rfl, by simp [takeMove, hp], by simpa [step, takeMove, hp] using h⟩
    | receive xs => left; exact ⟨.rx xs, _, rest, rfl, by simp [takeMove, hp], by simpa [step, takeMove, hp] using h⟩

/-- Everything an accepted operation can do to the state. -/
theorem exec_next {i : Instr} {s t : State} (h : exec i s = .next t) :
    (∃ sr bd fh fl tf, i = .cfg sr bd fh fl tf ∧ s.mode = .unconfigured ∧
      ((invalidMask ⟨sr, bd, fh, fl, tf⟩ = 0 ∧ t = s.loadConfig ⟨sr, bd, fh, fl, tf⟩) ∨
       (invalidMask ⟨sr, bd, fh, fl, tf⟩ ≠ 0 ∧
          t = (s.deliver []).raise (.configurationError (invalidMask ⟨sr, bd, fh, fl, tf⟩))))) ∨
    (s.mode = .ready ∧ ((∀ bits, i ≠ .feed bits) ∧ (∀ xs, i ≠ .rx xs) ∧ i ≠ .arst) ∧ ∃ es, t = s.deliver es) ∨
    (s.mode = .ready ∧ ∃ bits es,
      (i = .feed bits ∨ ∃ xs, i = .rx xs ∧ bits = demodBits Config.givenReals s.config s.samplesPerSymbol xs) ∧
      fitsText s.build (s.res ++ bits) s.text = true ∧ t = (s.fed bits).deliver es) ∨
    (s.mode = .ready ∧ i = .arst ∧ t = s.clearAssembler.deliver []) := by
  cases i with
  | cfg sr bd fh fl tf =>
    left
    obtain ⟨hm, hr⟩ := whenUnconfigured_next h
    refine ⟨sr, bd, fh, fl, tf, rfl, hm, ?_⟩
    by_cases hv : invalidMask ⟨sr, bd, fh, fl, tf⟩ = 0
    · rw [if_pos hv] at hr; exact .inl ⟨hv, by simpa using hr.symm⟩
    · rw [if_neg hv] at hr; exact .inr ⟨hv, by simpa using hr.symm⟩
  | synth f d r =>
    right; left
    obtain ⟨hm, hr⟩ := whenReady_next h
    refine ⟨hm, by simp, ?_⟩
    by_cases hv : degenerateMask f d r = 0
    · rw [if_pos hv] at hr; exact ⟨_, by simpa using hr.symm⟩
    · rw [if_neg hv] at hr; cases hr; exact ⟨[.error (.invalidParameter (degenerateMask f d r))], rfl⟩
  | enc m => right; left; obtain ⟨hm, hr⟩ := whenReady_next h; exact ⟨hm, by simp, _, by simpa using hr.symm⟩
  | mod bits => right; left; obtain ⟨hm, hr⟩ := whenReady_next h; exact ⟨hm, by simp, _, by simpa using hr.symm⟩
  | demod xs => right; left; obtain ⟨hm, hr⟩ := whenReady_next h; exact ⟨hm, by simp, _, by simpa using hr.symm⟩
  | feed bits =>
    right; right; left
    obtain ⟨hm, hr⟩ := whenReady_next h
    by_cases hf : fitsText s.build (s.res ++ bits) s.text = true
    · rw [if_pos hf] at hr; cases hr; exact ⟨hm, bits, (s.fed bits).out, .inl rfl, hf, rfl⟩
    · rw [if_neg hf] at hr; cases hr
  | arst => right; right; right; obtain ⟨hm, hr⟩ := whenReady_next h; exact ⟨hm, rfl, by simpa using hr.symm⟩
  | tx m =>
    right; left
    obtain ⟨u, v, hu, -, -⟩ := thenIssue_next h
    obtain ⟨hm, -⟩ := whenReady_next hu
    exact ⟨hm, by simp, _, by simpa using ((execTx_ready hm m).symm.trans h).symm⟩
  | rx xs =>
    right; right; left
    obtain ⟨u, v, hu, -, -⟩ := thenIssue_next h
    obtain ⟨hm, -⟩ := whenReady_next hu
    by_cases hf : fitsText s.build (s.res ++ demodBits Config.givenReals s.config s.samplesPerSymbol xs) s.text = true
    · exact ⟨hm, _, _, .inr ⟨xs, rfl, rfl⟩, hf, by simpa using ((execRx_fits hm hf).symm.trans h).symm⟩
    · have := (execRx_overflow hm (by simpa using hf)).symm.trans h
      cases this
  | reserved => cases h

/-! The next state of one operation. -/

theorem exec_mod_next {s t : State} {bits : List Bit} (h : exec (.mod bits) s = .next t) :
    s.mode = .ready ∧ t = s.deliver ((modulate s.config s.samplesPerSymbol bits).map .sample) := by
  have hm : s.mode = .ready := (whenReady_next h).1
  have := (execMod_ready hm bits).symm.trans h
  exact ⟨hm, by simpa using this.symm⟩

theorem exec_demod_next {s t : State} {xs : List Sample} (h : exec (.demod xs) s = .next t) :
    s.mode = .ready ∧ t = s.deliver ((verdicts Config.givenReals s.config s.samplesPerSymbol xs).flatMap verdictEmissions) := by
  have hm : s.mode = .ready := (whenReady_next h).1
  have := (execDemod_ready hm xs).symm.trans h
  exact ⟨hm, by simpa using this.symm⟩

theorem exec_feed_next {s t : State} {bits : List Bit} (h : exec (.feed bits) s = .next t) :
    s.mode = .ready ∧ fitsText s.build (s.res ++ bits) s.text = true ∧ t = s.fed bits := by
  have hm : s.mode = .ready := (whenReady_next h).1
  by_cases hf : fitsText s.build (s.res ++ bits) s.text = true
  · have := (execFeed_fits hm hf).symm.trans h
    exact ⟨hm, hf, by simpa using this.symm⟩
  · have := (execFeed_overflow hm (by simpa using hf)).symm.trans h
    cases this

end Sys2Proof.Machine
end

