-- ==== Sys2Proof/Tests/Slice0.lean ====
section
/-! SUPPORT. Tests of the model against the spec's own vectors (`95_test_vectors.md`), a smoke test of WellFormed, the words of
the operations, and a witness for the hypotheses of each statement. Each test is of one operation. -/

namespace Sys2Proof.Tests

-- One proof at a time: each `decide +kernel` waits for the kernel, and a waiting proof keeps a thread and its stack.
set_option Elab.async false

open Sys2Proof.Machine

/-! ## Helpers -/

/-- The next state, where there is one. -/
def nextOf : Result → Option State
  | .next t => some t
  | .fault _ => none
  | .refused _ => none

def faultOf : Result → Option Fault
  | .fault f => some f
  | .next _ => none
  | .refused _ => none

def refusalOf : Result → Option Refusal
  | .refused r => some r
  | .next _ => none
  | .fault _ => none

theorem eq_next {r : Result} {t : State} (h : nextOf r = some t) : r = .next t := by
  cases r <;> simp_all [nextOf]

theorem exists_next {r : Result} (h : (nextOf r).isSome = true) : ∃ t, r = .next t := by
  cases r <;> simp_all [nextOf]

/-- In `Ready` under a configuration. -/
def readyWith (c : Configuration) : State :=
  { State.reset with config := c, samplesPerSymbol := samplesPerSymbolOf c, mode := .ready }

/-- Configuration A of `95_test_vectors.md`, with its factor 1/2. -/
def configA : Configuration := ⟨12, 1, 3, 1, 1/2⟩

def readyA : State := readyWith configA

/-- `Ready` with configuration A, a residual and a text. -/
def feeding (res : List Bit) (text : List Byte) : State := { readyA with res := res, text := text }

def failed : State := { State.reset with mode := .failed }

/-- A build with policy `ELIDE`. -/
def elideBuild : Build := { Build.default with encPolicy := .elide }

/-- A build in which only codes below 128 are characters. -/
def asciiBuild : Build := { Build.default with validCodes := BitVec.ofNat 256 (2 ^ 128 - 1) }

def cappedBuild (n : Nat) : Build := { Build.default with textCap := some n }

/-- The rational `q` as a sample. -/
def num (q : Q) : Amp := ampOfRat q

/-- `q · √3/2`, which is `q · sin(2π · 1/6)`. -/
def root3 (q : Q) : Amp := [⟨q, 1/6⟩]

/-- `H` and `Lo`, the two bursts of configuration A. -/
def burstH : List Amp := [0, 1, 0, -1, 0, 1, 0, -1, 0, 1, 0, -1].map num
def burstLo : List Amp :=
  [num 0, num (1/2), root3 1, num 1, root3 1, num (1/2), num 0, num (-1/2), root3 (-1), num (-1), root3 (-1), num (-1/2)]

/-- 1 at index `k` of a window of 12, else 0. -/
def pulse (k : Nat) : List Amp := (List.replicate 12 (num 0)).set k (num 1)

/-- Samples written out, as an operand. -/
def heard (xs : List Amp) : List Sample := xs.map .exact

def bitsHi : List Bit :=
  [false, true, false, false, true, false, false, false, false, true, true, false, true, false, false, true]

/-! ## WellFormed refuses each ill-formed amplitude -/

theorem test_wf_zero_coefficient : Instr.wf (.demod [.exact [⟨0, 1/5⟩]]) = false := by decide +kernel
theorem test_wf_phase_zero : Instr.wf (.demod [.exact [⟨1, 0⟩]]) = false := by decide +kernel
theorem test_wf_phase_beyond_quarter : Instr.wf (.rx [.exact [⟨1, 3/10⟩]]) = false := by decide +kernel
theorem test_wf_phase_twelfth : Instr.wf (.demod [.exact [⟨1, 1/12⟩]]) = false := by decide +kernel
theorem test_wf_unsorted : Instr.wf (.rx [.exact [⟨1, 1/5⟩, ⟨1, 1/6⟩]]) = false := by decide +kernel
theorem test_wf_phase_twice : Instr.wf (.demod [.exact [⟨1, 1/5⟩, ⟨1, 1/5⟩]]) = false := by decide +kernel
theorem test_wf_accepts : Instr.wf (.demod [.exact [], .exact [⟨-1/3, 1/6⟩, ⟨2, 1/4⟩], .given 3]) = true := by decide +kernel

/-! ## The words of rule R58, written out bit by bit -/

theorem test_word_cfg : decodeTableWord 8 0b00000001 = some (.cfg 0 0 0 0 0) := rfl
theorem test_word_synth : decodeTableWord 8 0b00000010 = some (.synth 0 0 0) := rfl
theorem test_word_enc : decodeTableWord 8 0b00000011 = some (.enc []) := rfl
theorem test_word_mod : decodeTableWord 8 0b00000100 = some (.mod []) := rfl
theorem test_word_demod : decodeTableWord 8 0b00000101 = some (.demod []) := rfl
theorem test_word_feed : decodeTableWord 8 0b00000110 = some (.feed []) := rfl
theorem test_word_arst : decodeTableWord 8 0b00000111 = some .arst := rfl
theorem test_word_reserved : decodeTableWord 8 0b00000000 = some .reserved := rfl
theorem test_word_too_wide : decodeWord 8 0b00001001 = .error .notASelector := rfl
theorem test_word_too_short : decodeWord 2 0b01 = .error .tooFewBits := rfl
theorem test_pseudo_have_no_code : encode (.tx [0x48]) = none ∧ encode (.rx []) = none := ⟨rfl, rfl⟩

/-- A placed word is the very next operation: `ENC` of no byte, in `Ready`, gives no bit; in reset it is not accepted. -/
theorem test_placed_word_runs :
    (nextOf (step (readyA.withFetchWord 8 0b011))).map (·.out) = some [] ∧
    faultOf (step (State.reset.withFetchWord 8 0b011)) = some (.notReady .unconfigured) := by decide +kernel

/-! ## CFG (V-C3, V-C7) -/

theorem test_cfg_floor : (nextOf (exec (.cfg 10 (26/100) (5/2) 1 (1/2)) State.reset)).map
    (fun t => (t.mode, t.samplesPerSymbol, t.out)) = some (.ready, 2, []) := by decide +kernel
theorem test_cfg_two_causes : (nextOf (exec (.cfg 12 1 (-3) 0 (1/2)) State.reset)).map (fun t => (t.mode, t.out))
    = some (.failed, [.error (.configurationError 0b001100#6)]) := by decide +kernel

/-! ## SYNTH (V-S2, V-S13) -/

theorem test_synth_samples : (nextOf (exec (.synth 1 1 12) readyA)).map (·.out) = some (burstLo.map .sample) := by
  decide +kernel
theorem test_synth_two_causes : (nextOf (exec (.synth (-1) (-1) 12) readyA)).map (·.out)
    = some [.error (.invalidParameter 0b011#3)] := by decide +kernel

/-! ## ENC (V-E1, V-E5) -/

theorem test_enc_fixed8 : (nextOf (exec (.enc [0x48, 0x69]) readyA)).map (·.out) = some (bitsHi.map .bit) := by
  decide +kernel
theorem test_enc_elide : (nextOf (exec (.enc [0x00, 0x41]) { readyA with build := elideBuild })).map (·.out)
    = some ([true, false, false, false, false, false, true].map .bit) := by decide +kernel

/-! ## MOD (V-M4, V-M8) -/

theorem test_mod_two_bursts : (nextOf (exec (.mod [true, false]) readyA)).map (·.out)
    = some ((burstH ++ burstLo).map .sample) := by decide +kernel
theorem test_mod_short_burst : (nextOf (exec (.mod [true, false]) (readyWith ⟨10, 26/100, 5/2, 1, 1/2⟩))).map (·.out)
    = some ([num 0, num 1, num 0, [⟨1, 1/10⟩]].map .sample) := by decide +kernel

/-! ## DEMOD (V-D9 with V-D11's discarded remainder, V-D4's boundary) -/

theorem test_demod_one_and_remainder :
    (nextOf (exec (.demod (heard (pulse 1 ++ List.replicate 11 (num 1)))) readyA)).map (·.out) = some [.bit true, .verdict .one] := by
  decide +kernel
theorem test_demod_strict_boundary :
    (nextOf (exec (.demod (heard burstH)) (readyWith ⟨12, 1, 3, 1, 2/5⟩))).map (·.out) = some [.verdict .ambig] := by decide +kernel

/-! ## FEED (V-F9, V-F8) -/

theorem test_feed_stale_bit :
    (nextOf (exec (.feed [false, true, false, false, true, false, false, false, false, true, true, false, true, false, false,
      true, true]) (feeding [true] [0x41]))).map (fun t => (t.res, t.text, t.out))
    = some ([true, true], [0x41, 0xA4, 0x34], [.report 0xA4 [0x41, 0xA4], .report 0x34 [0x41, 0xA4, 0x34]]) := by
  decide +kernel
theorem test_feed_placeholder :
    (nextOf (exec (.feed [true, false, false, false, false, false, false, false, false, true, false, false, false, false,
      false, true, true, true, true, true, true, true, true, true, false]) { readyA with build := asciiBuild })).map
      (fun t => (t.res, t.text, t.out))
    = some ([false], [0x3F, 0x41, 0x3F], [.error (.invalidByte 0x80), .report 0x3F [0x3F], .report 0x41 [0x3F, 0x41],
        .error (.invalidByte 0xFF), .report 0x3F [0x3F, 0x41, 0x3F]]) := by decide +kernel

/-! ## ARST (V-F10) -/

theorem test_arst : (nextOf (exec .arst (feeding [true, true, false] [0x50]))).map (fun t => (t.res, t.text, t.out, t.mode))
    = some ([], [], [], .ready) := by decide +kernel

/-! ## TX and RX (P8 (a); V-F3 through a window of zero) -/

theorem test_tx : (nextOf (exec (.tx [0x48]) readyA)).map (fun t => smpOut t.out)
    = some (burstLo ++ burstH ++ burstLo ++ burstLo ++ burstH ++ burstLo ++ burstLo ++ burstLo) := by decide +kernel
theorem test_rx : (nextOf (exec (.rx (heard burstLo)) (feeding [false, true, false, false, true, false, false] []))).map
      (fun t => (t.res, t.text, t.out))
    = some ([], [0x48], [.bit false, .verdict .zero, .report 0x48 [0x48]]) := by decide +kernel

/-! ## Acceptance (V-X2 to V-X5), and the resets -/

theorem test_reserved : refusalOf (exec .reserved readyA) = some .reservedSelector := rfl
theorem test_not_ready : faultOf (exec (.feed [true]) State.reset) = some (.notReady .unconfigured) := rfl
theorem test_rx_not_ready : faultOf (exec (.rx []) failed) = some (.notReady .failed) := rfl
theorem test_cfg_twice : faultOf (exec (.cfg 8 1 2 1 (1/2)) readyA) = some (.configurationFixed .ready) := rfl
theorem test_cfg_failed : faultOf (exec (.cfg 12 1 3 1 (1/2)) failed) = some (.configurationFixed .failed) := rfl
theorem test_text_capacity :
    refusalOf (exec (.feed (List.replicate 8 true)) { feeding [] [0x41] with build := cappedBuild 1 }) = some .textCapacity := by
  decide +kernel
theorem test_reset_truncates :
    (nextOf (step { readyA with pending := [.reset 1], out := [.bit true, .bit false], text := [0x41] })).map
      (fun t => (t.out, t.text, t.mode, t.readConfig)) = some ([.bit true], [], .unconfigured, none) := by decide +kernel
theorem test_idle : (nextOf (step readyA)).map (·.mode) = some .ready := rfl

/-! ## Witnesses: for each statement with hypotheses, a state and operands that meet them -/

theorem witness_StepRunsTheNextMove :
    ({ readyA with pending := [.request (Request.idle 0b111#3)] } : State).pending = .request (Request.idle 0b111#3) :: [] ∧
    ({ readyA with pending := [.transmit [0x48], .reset 0] } : State).pending = .transmit [0x48] :: [.reset 0] ∧
    ({ readyA with pending := [.receive []] } : State).pending = .receive [] :: [] ∧
    ({ failed with pending := [.reset 3] } : State).pending = .reset 3 :: [] ∧ State.reset.pending = [] :=
  ⟨rfl, rfl, rfl, rfl, rfl⟩

theorem witness_EachCodeSelectsItsOperation :
    (Request.idle 0b000#3).cmd = 0b000#3 ∧ (Request.idle 0b001#3).cmd = 0b001#3 ∧ (Request.idle 0b010#3).cmd = 0b010#3 ∧
    (Request.idle 0b011#3).cmd = 0b011#3 ∧ (Request.idle 0b100#3).cmd = 0b100#3 ∧ (Request.idle 0b101#3).cmd = 0b101#3 ∧
    (Request.idle 0b110#3).cmd = 0b110#3 ∧ (Request.idle 0b111#3).cmd = 0b111#3 :=
  ⟨rfl, rfl, rfl, rfl, rfl, rfl, rfl, rfl⟩

theorem witness_EncodeDecodeAgree :
    encode (.feed [true]) = some { Request.idle 0b110#3 with bitIn := [true] } ∧ encode (.tx [0x48]) = none := ⟨rfl, rfl⟩

theorem witness_ReservedSelectorIsRefused :
    (Request.idle 0b000#3).cmd = 0b000#3 ∧ (Request.idle 0b111#3).cmd ≠ 0b000#3 := by decide

/-- A reset leaves `Failed`, and a reset takes the configuration away. -/
theorem witness_HardwareResetClearsTheBlock :
    ¬ IsCfg (.enc []) ∧
    (∃ t, step { failed with pending := [.reset 0] } = .next t ∧ failed.mode = .failed ∧ t.mode ≠ .failed) ∧
    ∃ t, step { readyA with pending := [.reset 0] } = .next t ∧ readyA.readConfig ≠ none ∧ t.readConfig ≠ readyA.readConfig := by
  refine ⟨by simp [IsCfg], ⟨_, rfl, rfl, by decide⟩, _, rfl, ?_, ?_⟩ <;> simp [readyA, readyWith, State.readConfig]

/-- A reset after the third of the eight bits of an `ENC`. -/
theorem witness_ResetCutsTheResultShort :
    ({ readyA with pending := [.reset 3] } : State).pending = .reset 3 :: [] ∧
    ∃ t, exec (.enc [0x48]) { readyA with pending := [.reset 3] } = .next t ∧ t.out.length = 8 := ⟨rfl, _, rfl, rfl⟩

theorem witness_ModeChangesOnlyByTheTable :
    (State.reset.mode = .unconfigured ∧ invalidMask configA = 0 ∧ invalidMask ⟨12, 1, 3, 1, 1⟩ ≠ 0) ∧
    (readyA.mode ≠ .unconfigured ∧ IsCfg (.cfg 8 1 2 1 (1/2))) ∧ (failed.mode ≠ .ready ∧ ¬ IsCfg .arst) ∧
    (readyA.mode = .ready ∧ ∃ t, exec .arst readyA = .next t) ∧
    ∃ t, step { failed with pending := [.reset 0] } = .next t ∧ t.mode ≠ failed.mode :=
  ⟨⟨rfl, by decide +kernel, by decide +kernel⟩, ⟨by decide, _, _, _, _, _, rfl⟩, ⟨by decide, by simp [IsCfg]⟩, ⟨rfl, _, rfl⟩,
    _, rfl, by decide⟩

/-- The other way `MODE` changes in a step: a `CFG` requested in `Unconfigured`. -/
theorem witness_ModeChangesByCfg :
    ∃ t, step { State.reset with pending := [.request { Request.idle 0b001#3 with
        cfgSampleRate := 12, cfgBitDuration := 1, cfgFreqHigh := 3, cfgFreqLow := 1, cfgThresholdFactor := 1/2 }] } = .next t ∧
      t.mode ≠ State.reset.mode :=
  ⟨_, eq_next (t := readyA) (by decide +kernel), by decide⟩

theorem witness_UnloadedConfigurationIsNotRead : State.reset.mode ≠ .ready ∧ failed.mode ≠ .ready := by decide

theorem witness_InvalidMaskNamesTheFailingClauses : (0 : ℝ) ≤ 6 ∧ (0 : ℝ) ≤ 4 ∧ ((0 : ℝ) ≤ 0 ∧ (1 : ℝ) ≤ 1) := by norm_num

theorem witness_ValidCfgLoadsTheConfiguration :
    State.reset.mode = .unconfigured ∧ invalidMask ⟨12, 1, 3, 1, 1/2⟩ = 0 ∧ ¬ IsCfg (.rx []) ∧ Instr.rx [] ≠ .reserved :=
  ⟨rfl, by decide +kernel, by simp [IsCfg], by simp⟩

/-- The smallest configuration that is valid (V-C14), and the boundary just past it. -/
theorem witness_InvalidCfgFailsTheBlock :
    State.reset.mode = .unconfigured ∧ invalidMask ⟨1, 1, 1, 1, 1/2⟩ = 0 ∧ invalidMask ⟨1, 99/100, 1, 1, 1/2⟩ ≠ 0 :=
  ⟨rfl, by decide +kernel, by decide +kernel⟩

theorem witness_CfgIsNotAcceptedTwice : readyA.mode ≠ .unconfigured ∧ failed.mode ≠ .unconfigured := by decide

theorem witness_ConfigurationStaysAsLoaded :
    (∃ t, exec (.cfg 12 1 3 1 (1/2)) State.reset = .next t ∧ t.readConfig ≠ State.reset.readConfig) ∧
    ∃ t, step readyA = .next t ∧ readyA.readConfig = some configA :=
  ⟨⟨_, eq_next (t := readyA) (by decide +kernel), by decide +kernel⟩, _, rfl, rfl⟩

theorem witness_SynthDeliversTheSampledSine : readyA.mode = .ready ∧ (0 : Q) < 1 ∧ (0 : Q) < 1/2 ∧ (0 : Q) < 1 :=
  ⟨rfl, by norm_num, by norm_num, by norm_num⟩

theorem witness_SynthRejectsDegenerateOperands :
    readyA.mode = .ready ∧ ((0 : Q) ≤ 0 ∨ (1 : Q) ≤ 0 ∨ (12 : Q) ≤ 0) ∧ ((1 : Q) ≤ 0 ∨ (1 : Q) ≤ 0 ∨ (0 : Q) ≤ 0) :=
  ⟨rfl, by norm_num, by norm_num⟩

theorem witness_SynthIsPure : readyA.mode = .ready := rfl

theorem witness_ToneProperties : (12 : Q) ≠ 0 ∧ (3 : Q) * (4 : Nat) / 12 = (1 : ℤ) := by norm_num

/-- The samples at 1/12 and at 5/12 of a turn are both 1/2. -/
theorem witness_EqualSamplesAreEqualData :
    Real.sin (2 * Real.pi * ((1 : Q) : ℝ) * ((1 : Nat) : ℝ) / ((12 : Q) : ℝ))
      = Real.sin (2 * Real.pi * ((5 : Q) : ℝ) * ((1 : Nat) : ℝ) / ((12 : Q) : ℝ)) := by
  push_cast
  rw [show 2 * Real.pi * 5 * 1 / 12 = Real.pi - 2 * Real.pi * 1 * 1 / 12 by ring, Real.sin_pi_sub]

theorem inv_readyA : readyA.Inv :=
  ⟨by decide, fun _ => ⟨by decide +kernel, rfl, by decide +kernel⟩, fun h => absurd rfl h, fun _ h => (by cases h),
    fun c h => (by cases h)⟩

theorem witness_BurstsAreSynthesizedTones : readyA.Inv ∧ readyA.mode = .ready := ⟨inv_readyA, rfl⟩

theorem witness_BytesAreMostSignificantBitFirst : [false, true, false, false, true, false, false, false].length = 8 := rfl

theorem witness_Fixed8SendsEveryByteWhole :
    readyA.mode = .ready ∧ readyA.build.encPolicy = .fixed8 ∧ 1 < [(0x48 : Byte), 0x69].length ∧ 7 < 8 := by decide

/-- Both cases: the value 0 and a value above 0. -/
theorem witness_ElideSendsTheNumeral :
    ({ readyA with build := elideBuild } : State).mode = .ready ∧
    ({ readyA with build := elideBuild } : State).build.encPolicy = .elide ∧
    (∑ k ∈ Finset.range [(0x00 : Byte)].length, ([(0x00 : Byte)].getD k 0).toNat * 256 ^ ([(0x00 : Byte)].length - 1 - k)) = 0 ∧
    0 < ∑ k ∈ Finset.range [(0x41 : Byte)].length, ([(0x41 : Byte)].getD k 0).toNat * 256 ^ ([(0x41 : Byte)].length - 1 - k) :=
  ⟨rfl, rfl, by decide, by decide⟩

theorem witness_PoliciesAgreeOnlyAboveHalf :
    readyA.mode = .ready ∧ (0x80#8).getLsbD 7 = true ∧ ∀ b ∈ [(0x7F : Byte)], b.toNat < 128 := by decide

theorem witness_EncodedLengths :
    [(0x48 : Byte)] ≠ [] ∧ (∀ b ∈ [(0x00 : Byte), 0x00], b = 0#8) ∧ (0x7F#8).getLsbD 7 = false := by decide

theorem witness_ModIsSampleExact :
    readyA.mode = .ready ∧ 1 < [true, false].length ∧ 11 < readyA.samplesPerSymbol ∧
    1 * readyA.samplesPerSymbol + 11 < (modulate configA 12 [true, false]).length := by decide +kernel

theorem witness_BurstsJoinWithoutGap :
    1 < [true, false].length ∧ ∃ t, exec (.mod [true, false]) readyA = .next t := ⟨by decide, _, rfl⟩

theorem witness_ModAmplitudes :
    (∃ t, exec (.mod [true, false]) readyA = .next t) ∧ 1 < [true, false].length ∧ 1 ≤ readyA.samplesPerSymbol :=
  ⟨⟨_, rfl⟩, by decide, by decide +kernel⟩

theorem witness_TxIsEncThenMod : readyA.mode = .ready ∧ readyA.build.encPolicy = .fixed8 := ⟨rfl, rfl⟩

theorem witness_ModulatorRaisesNothing :
    IsTransmitSide (.enc []) ∧ IsTransmitSide (.mod [true]) ∧ IsTransmitSide (.tx [0x48]) ∧ readyA.mode = .ready ∧
    failed.mode ≠ .ready := ⟨trivial, trivial, trivial, rfl, by decide⟩

theorem witness_DemodClassifiesEveryWindow :
    readyA.mode = .ready ∧ 0 < (verdicts Config.givenReals readyA.config readyA.samplesPerSymbol (heard burstH)).length :=
  ⟨rfl, by rw [length_verdicts]; decide +kernel⟩

theorem demod_next (xs : List Sample) : ∃ t, exec (.demod xs) readyA = .next t := ⟨_, execDemod_ready rfl xs⟩

theorem witness_BitsAreTheVerdictsLessTheAmbiguous : ∃ t, exec (.demod (heard (burstH ++ pulse 3))) readyA = .next t := demod_next _

/-- One window and eleven samples more. -/
theorem witness_DemodResultLength :
    (∃ t, exec (.demod (heard (burstH ++ burstLo.take 11))) readyA = .next t) ∧
    (heard (burstH ++ burstLo.take 11)).length = 1 * readyA.samplesPerSymbol + 11 ∧ 11 < readyA.samplesPerSymbol :=
  ⟨demod_next _, by decide +kernel, by decide +kernel⟩

/-- No energy, and the energies of V-D1. -/
theorem witness_VerdictIsARatio :
    (0 : ℝ) < 1/2 ∧ (1/2 : ℝ) < 1 ∧ ((0 : ℝ) ≤ 0 ∧ (0 : ℝ) + 0 = 0) ∧ ((0 : ℝ) ≤ 6 ∧ (0 : ℝ) ≤ 4 ∧ (0 : ℝ) < 6 + 4) := by
  norm_num

/-- The given amplitudes 1, π, π², … -/
noncomputable def powersOfPi : GivenReals :=
  .of (fun k => Real.pi ^ k) (fun e => SignType.sign (e.val fun k => Real.pi ^ k)) fun _ => rfl

/-- A gain of π on an amplitude of π, silence, equal energies, and two zeros of both references. -/
theorem witness_VerdictInvariances :
    (Real.pi ≠ 0 ∧ [Sample.given 2].map (Sample.val powersOfPi)
      = [Sample.given 1].map fun a => Real.pi * a.val powersOfPi) ∧
    (∀ a ∈ heard (pulse 12), a.val Config.givenReals = 0) ∧
    (realEnergy (burstH.map ampVal) (realReference 3 12 12) = realEnergy (burstH.map ampVal) (realReference 3 12 12)) ∧
    realTone configA.freqHigh 6 configA.sampleRate = 0 ∧ realTone configA.freqLow 6 configA.sampleRate = 0 := by
  refine ⟨⟨Real.pi_ne_zero, ?_⟩, ?_, rfl, ?_, ?_⟩
  · simp [powersOfPi, Sample.val, GivenReals.amplitude]; ring
  · intro a ha
    have : heard (pulse 12) = List.replicate 12 (.exact (num 0)) := by decide +kernel
    rw [this] at ha
    rw [List.eq_of_mem_replicate ha, Sample.val, num, ampVal_ampOfRat]
    norm_num
  · have : (3 : ℕ) * Real.pi = 2 * Real.pi * ((configA.freqHigh : Q) : ℝ) * ((6 : Nat) : ℝ) / ((configA.sampleRate : Q) : ℝ) := by
      simp [configA]; ring
    rw [realTone, ← this]
    exact Real.sin_nat_mul_pi 3
  · have : (1 : ℕ) * Real.pi = 2 * Real.pi * ((configA.freqLow : Q) : ℝ) * ((6 : Nat) : ℝ) / ((configA.sampleRate : Q) : ℝ) := by
      simp [configA]; ring
    rw [realTone, ← this]
    exact Real.sin_nat_mul_pi 1

/-- Configuration A separates clean tones at its factor 1/2. -/
theorem separates_configA : SeparatesTones configA 12 :=
  (separatesTones_iff .silent _ _).2 ⟨by decide +kernel, by decide +kernel⟩

/-- Both sides of the equivalence occur: at 3/10 the same tones are not told apart (V-D3). -/
theorem witness_ModemRoundTrip :
    readyA.mode = .ready ∧ SeparatesTones readyA.config readyA.samplesPerSymbol ∧ ¬ SeparatesTones ⟨12, 1, 3, 1, 3/10⟩ 12 := by
  refine ⟨rfl, ?_, fun h => ?_⟩
  · have : readyA.samplesPerSymbol = 12 := by decide +kernel
    rw [this]; exact separates_configA
  · have := ((separatesTones_iff .silent _ _).1 h).1
    revert this
    decide +kernel

theorem witness_WindowsTileTheBuffer :
    1 ≤ readyA.samplesPerSymbol ∧ readyA.samplesPerSymbol ∣ (heard burstH).length ∧ (∃ t, exec (.demod (heard burstH)) readyA = .next t) ∧
    (∃ u, exec (.demod (heard (pulse 1))) readyA = .next u) ∧ (∃ v, exec (.demod (heard burstH ++ heard (pulse 1))) readyA = .next v) ∧
    (heard (burstLo.take 11)).length < readyA.samplesPerSymbol :=
  ⟨by decide +kernel, by decide +kernel, demod_next _, demod_next _, demod_next _, by decide +kernel⟩

theorem witness_EqualTonesDecodeNothing :
    (readyWith ⟨12, 1, 3, 3, 1/2⟩).config.freqHigh = (readyWith ⟨12, 1, 3, 3, 1/2⟩).config.freqLow ∧
    ∃ t, exec (.demod (heard burstH)) (readyWith ⟨12, 1, 3, 3, 1/2⟩) = .next t := ⟨rfl, _, execDemod_ready rfl _⟩

theorem fits_readyA (n : Nat) : readyA.Fits n := fun _ h => (by cases h)

/-- Without a capacity, and filling one to the brim. -/
theorem witness_FeedDecodesEveryWholeGroup :
    readyA.mode = .ready ∧ readyA.Fits bitsHi.length ∧ ({ readyA with build := cappedBuild 2 } : State).Fits bitsHi.length :=
  ⟨rfl, fits_readyA _, fun cap h => (by cases h; decide)⟩

theorem feed_next (bits : List Bit) : ∃ t, exec (.feed bits) readyA = .next t := ⟨_, execFeed_fits rfl rfl⟩

theorem witness_FeedLengths : ∃ t, exec (.feed bitsHi) readyA = .next t := feed_next _

theorem witness_PartialGroupWaits :
    readyA.mode = .ready ∧ readyA.Fits (bitsHi.take 7).length ∧ readyA.res.length + (bitsHi.take 7).length < 8 ∧
    ∃ t, exec .arst (feeding [true, true, false] [0x50]) = .next t := ⟨rfl, fits_readyA _, by decide, _, rfl⟩

theorem witness_SplittingAFeedDoesNotMatter :
    readyA.mode = .ready ∧ readyA.Fits ((bitsHi.take 4).length + (bitsHi.drop 4).length) := ⟨rfl, fits_readyA _⟩

/-- The text of one character is full at 1, and one more fits in 2. -/
theorem witness_TextCapacityIsKept :
    (feeding [] [0x41]).mode = .ready ∧
    (({ feeding [] [0x41] with build := cappedBuild 1 } : State).build.textCap = some 1 ∧ 1 < [(0x41 : Byte)].length + (0 + 8) / 8) ∧
    (({ feeding [] [0x41] with build := cappedBuild 2 } : State).build.textCap = some 2 ∧ [(0x41 : Byte)].length + (0 + 8) / 8 ≤ 2) ∧
    (feeding [] [0x41]).build.textCap = none :=
  ⟨rfl, ⟨rfl, by decide⟩, ⟨rfl, by decide⟩, rfl⟩

theorem witness_ArstEmptiesTheAssembler : (feeding [true] [0x41]).mode = .ready ∧ failed.mode ≠ .ready := by decide

/-- One bit that completes a character, with room for it and without. -/
theorem witness_RxIsDemodThenFeed :
    readyA.mode = .ready ∧ (∃ t, exec (.demod (heard burstH)) readyA = .next t ∧ readyA.Fits (bitOut t.out).length) ∧
    ¬ ({ feeding (List.replicate 7 true) [0x41] with build := cappedBuild 1 } : State).Fits 1 :=
  ⟨rfl, ⟨_, execDemod_ready rfl _, fits_readyA _⟩, fun h => absurd (h 1 rfl) (by decide)⟩

theorem witness_ByteRoundTrip :
    readyA.mode = .ready ∧ SeparatesTones readyA.config readyA.samplesPerSymbol ∧ readyA.build.encPolicy = .fixed8 ∧
    readyA.Fits (8 * [(0x48 : Byte), 0x69].length) ∧ (∀ v, readyA.build.charValid v = true) ∧ readyA.res = [] :=
  ⟨rfl, witness_ModemRoundTrip.2.1, rfl, fits_readyA _, by decide +kernel, rfl⟩

/-- An operation of each kind that raises its error. -/
theorem witness_EachOperationRaisesOneKind :
    (nextOf (exec (.cfg 0 1 3 1 (1/2)) State.reset)).map (fun t => errOut t.out) = some [.configurationError 1#6] ∧
    (nextOf (exec (.synth 0 1 12) readyA)).map (fun t => errOut t.out) = some [.invalidParameter 1#3] ∧
    (nextOf (exec (.feed (List.replicate 8 true)) { readyA with build := asciiBuild })).map (fun t => errOut t.out)
      = some [.invalidByte 0xFF] := by decide +kernel

theorem witness_NothingRunsOutsideReady : State.reset.mode ≠ .ready ∧ failed.mode ≠ .ready ∧ failed.mode = .failed := by decide

/-- An operation that changes nothing, one that writes the assembler, and a `CFG`. -/
theorem witness_OperationsWriteOnlyTheirRegisters :
    (IsPure (.enc [0x48]) ∧ ∃ t, exec (.enc [0x48]) readyA = .next t) ∧
    (¬ IsCfg (.feed bitsHi) ∧ ∃ t, exec (.feed bitsHi) readyA = .next t) ∧
    IsCfg (.cfg 12 1 3 1 (1/2)) ∧ ∃ t, exec (.cfg 12 1 3 1 (1/2)) State.reset = .next t :=
  ⟨⟨trivial, _, rfl⟩, ⟨by simp [IsCfg], feed_next _⟩, ⟨_, _, _, _, _, rfl⟩, exists_next (by decide +kernel)⟩

theorem witness_PureOperationsLeaveNoTrace : IsPure (.demod (heard burstH)) ∧ ∃ t, exec (.demod (heard burstH)) readyA = .next t :=
  ⟨trivial, demod_next _⟩

theorem witness_SidesDoNotInterfere :
    IsTransmitSide (.mod [true]) ∧ IsReceiveSide (.feed bitsHi) ∧ (∃ t, exec (.mod [true]) readyA = .next t) ∧
    ∃ t, exec (.feed bitsHi) readyA = .next t := ⟨trivial, trivial, ⟨_, rfl⟩, feed_next _⟩

/-- No move; a reset; `ARST`; a `MOD`; a `FEED` whose one bit completes a character; and an `RX` that does. -/
theorem witness_TextOnlyGrowsOrIsEmptied :
    (∃ t, step (feeding [true] [0x41]) = .next t) ∧
    (∃ t, step { feeding [true] [0x41] with pending := [.reset 0] } = .next t) ∧
    (∃ t, step { feeding [true] [0x41] with pending := [.request (Request.idle 0b111#3)] } = .next t) ∧
    (∃ t, step { feeding [true] [0x41] with pending := [.request (Request.idle 0b100#3)] } = .next t) ∧
    (∃ t, step { feeding (List.replicate 7 true) [0x41] with
      pending := [.request { Request.idle 0b110#3 with bitIn := [true] }] } = .next t) ∧
    (∃ t, step { feeding (List.replicate 7 true) [0x41] with pending := [.receive (heard burstLo)] } = .next t) :=
  ⟨⟨_, rfl⟩, ⟨_, rfl⟩, ⟨_, rfl⟩, ⟨_, rfl⟩, ⟨_, rfl⟩, exists_next (by decide +kernel)⟩

theorem witness_EveryStepKeepsTheInvariant : readyA.Inv ∧ ∃ t, step readyA = .next t := ⟨inv_readyA, _, rfl⟩

/-- A step that delivers samples. -/
theorem witness_EveryStepKeepsOutputInRange :
    ({ readyA with pending := [.transmit [0x48]] } : State).OutputInRange ∧
    ∃ t, step { readyA with pending := [.transmit [0x48]] } = .next t :=
  ⟨fun a h => (by cases h), exists_next (by decide +kernel)⟩

end Sys2Proof.Tests
end

section
/-! PROOFS. The scope rules (`00_scope.md`): the exact amplitudes of rule R6 have one written form. -/

namespace Sys2Proof.Machine

/-- Settles O22: the value of a sample is the real sine of rule R81, and a value is written in one form only. -/
theorem equalSamplesAreEqualData : Obligations.EqualSamplesAreEqualData := by
  intro f g r q i j (hsin : realTone f i r = realTone g j q)
  have hval : ampVal (sinTone f i r) = ampVal (sinTone g j q) := by rw [ampVal_sinTone, ampVal_sinTone, hsin]
  exact ampSine_one_injective (f * i / r) (g * j / q) hval

end Sys2Proof.Machine
end

section
/-! SUPPORT. The state of the block (`10_state.md`): which mode an operation is accepted in, which registers it writes, and how
the assembler's registers grow. -/

namespace Sys2Proof.Machine

/-! The host's reads of `CONFIG` and `L` (rule R22). -/

theorem readConfig_of_not_ready {s : State} (h : s.mode ≠ .ready) : s.readConfig = none := by
  cases hm : s.mode <;> simp_all [State.readConfig]

theorem ready_of_readConfig {s : State} {c : Configuration} (h : s.readConfig = some c) : s.mode = .ready := by
  by_contra hm
  simp [readConfig_of_not_ready hm] at h

/-- Every code is a character of the default build (rule R5). -/
theorem charValid_default (v : Byte) : Build.default.charValid v = true := by
  rw [Build.charValid, Build.default, BitVec.getLsbD_allOnes, decide_eq_true v.isLt]

/-! Acceptance: `CFG` in `Unconfigured`, every other operation in `Ready` (rule R14). -/

theorem exec_cfg_next {s t : State} {sr bd fh fl tf : Q} (h : exec (.cfg sr bd fh fl tf) s = .next t) :
    s.mode = .unconfigured ∧
      ((invalidMask ⟨sr, bd, fh, fl, tf⟩ = 0 ∧ t = s.loadConfig ⟨sr, bd, fh, fl, tf⟩) ∨
       (invalidMask ⟨sr, bd, fh, fl, tf⟩ ≠ 0 ∧
          t = (s.deliver []).raise (.configurationError (invalidMask ⟨sr, bd, fh, fl, tf⟩)))) := by
  have hm : s.mode = .unconfigured := (whenUnconfigured_next h).1
  refine ⟨hm, ?_⟩
  by_cases hv : invalidMask ⟨sr, bd, fh, fl, tf⟩ = 0
  · have := (execCfg_valid hm hv).symm.trans h
    exact .inl ⟨hv, by simpa using this.symm⟩
  · have := (execCfg_invalid hm hv).symm.trans h
    exact .inr ⟨hv, by simpa using this.symm⟩

/-- An operation other than `CFG` runs in `Ready` only, and writes nothing but the assembler's registers and what is delivered. -/
theorem exec_not_cfg_next {i : Instr} {s t : State} (hi : ¬ IsCfg i) (h : exec i s = .next t) :
    s.mode = .ready ∧ t = { s with res := t.res, text := t.text, out := t.out } := by
  obtain ⟨sr, bd, fh, fl, tf, rfl, -⟩ | ⟨hm, -, es, rfl⟩ | ⟨hm, bits, es, -, -, rfl⟩ | ⟨hm, -, rfl⟩ := exec_next h
  · exact absurd ⟨sr, bd, fh, fl, tf, rfl⟩ hi
  · exact ⟨hm, rfl⟩
  · exact ⟨hm, rfl⟩
  · exact ⟨hm, rfl⟩

/-- What every operation but `CFG` answers outside `Ready` (rules R59, R169). -/
theorem exec_not_cfg_of_not_ready {i : Instr} {s : State} (hi : ¬ IsCfg i) (h : s.mode ≠ .ready) :
    exec i s = if i = .reserved then .refused .reservedSelector else .fault (.notReady s.mode) := by
  cases i with
  | cfg sr bd fh fl tf => exact absurd ⟨sr, bd, fh, fl, tf, rfl⟩ hi
  | synth f d r => exact whenReady_of_not_ready h _
  | enc m => exact whenReady_of_not_ready h _
  | mod bits => exact whenReady_of_not_ready h _
  | demod xs => exact whenReady_of_not_ready h _
  | feed bits => exact whenReady_of_not_ready h _
  | arst => exact whenReady_of_not_ready h _
  | tx m => exact (congrArg (thenIssue · fun t => execMod (bitOut t.out) t) (whenReady_of_not_ready h _)).trans rfl
  | rx xs => exact (congrArg (thenIssue · fun t => execFeed (bitOut t.out) t) (whenReady_of_not_ready h _)).trans rfl
  | reserved => rfl

/-- `CFG` does not read `CONFIG` and `L`: what they hold is overwritten, or stays and changes nothing else (rule R22). -/
theorem exec_cfg_config_irrelevant (s : State) (sr bd fh fl tf : Q) (c : Configuration) (l : Nat) :
    (exec (.cfg sr bd fh fl tf) { s with config := c, samplesPerSymbol := l } = exec (.cfg sr bd fh fl tf) s) ∨
    ∃ t, exec (.cfg sr bd fh fl tf) s = .next t ∧
      exec (.cfg sr bd fh fl tf) { s with config := c, samplesPerSymbol := l }
        = .next { t with config := c, samplesPerSymbol := l } := by
  by_cases hm : s.mode = .unconfigured
  · by_cases hv : invalidMask ⟨sr, bd, fh, fl, tf⟩ = 0
    · exact .inl ((execCfg_valid (by exact hm) hv).trans (execCfg_valid hm hv).symm)
    · exact .inr ⟨_, execCfg_invalid hm hv, execCfg_invalid (by exact hm) hv⟩
  · exact .inl ((whenUnconfigured_of_configured (by exact hm) _).trans (whenUnconfigured_of_configured hm _).symm)

/-- A pure operation changes only what is delivered (rule R38). -/
theorem exec_pure_next {i : Instr} {s t : State} (hi : IsPure i) (h : exec i s = .next t) : ∃ es, t = s.deliver es := by
  obtain ⟨sr, bd, fh, fl, tf, rfl, -⟩ | ⟨-, -, es, rfl⟩ | ⟨-, bits, es, rfl | ⟨xs, rfl, -⟩, -⟩ | ⟨-, rfl, -⟩ := exec_next h
  · exact hi.elim
  · exact ⟨es, rfl⟩
  · exact hi.elim
  · exact hi.elim
  · exact hi.elim

/-- An operation that changes `MODE` is a `CFG` that leaves `Unconfigured` (rule R14). -/
theorem exec_changes_mode {i : Instr} {s t : State} (h : exec i s = .next t) (hne : t.mode ≠ s.mode) :
    IsCfg i ∧ s.mode = .unconfigured ∧ t.mode ≠ .unconfigured := by
  by_cases hi : IsCfg i
  · obtain ⟨sr, bd, fh, fl, tf, rfl⟩ := hi
    obtain ⟨hm, ⟨-, rfl⟩ | ⟨-, rfl⟩⟩ := exec_cfg_next h
    · exact ⟨⟨sr, bd, fh, fl, tf, rfl⟩, hm, by simp⟩
    · exact ⟨⟨sr, bd, fh, fl, tf, rfl⟩, hm, by simp⟩
  · obtain ⟨-, ht⟩ := exec_not_cfg_next hi h
    exact absurd (by rw [ht]) hne

theorem not_isCfg_of_ready {i : Instr} {s t : State} (hm : s.mode = .ready) (h : exec i s = .next t) : ¬ IsCfg i := by
  rintro ⟨sr, bd, fh, fl, tf, rfl⟩
  have hu : s.mode = .unconfigured := (exec_cfg_next h).1
  simp [hm] at hu

/-- An operation other than `CFG` leaves the host's reads of `CONFIG` and `L` as they were (rule R11). -/
theorem reads_of_not_cfg_next {i : Instr} {s t : State} (hi : ¬ IsCfg i) (h : exec i s = .next t) :
    t.readConfig = s.readConfig ∧ t.readL = s.readL := by
  obtain ⟨-, ht⟩ := exec_not_cfg_next hi h
  rw [ht]
  exact ⟨rfl, rfl⟩

/-! One step, by the host's next move. -/

theorem step_idle {s : State} (h : s.pending = []) : step s = .next s := by simp [step, takeMove, h]

theorem step_reset {s : State} {k : Nat} {rest : List Move} (h : s.pending = .reset k :: rest) :
    step s = .next (({ s with pending := rest } : State).hardwareReset k) := by simp [step, takeMove, h]

/-- The moves that issue an operation, and the state it runs in. -/
theorem takeMove_operation {i : Instr} {s u : State} (h : takeMove s = .operation i u) :
    ∃ rest, u = { s with pending := rest } ∧
      ((∃ r, s.pending = .request r :: rest ∧ i = decode r) ∨ (∃ m, s.pending = .transmit m :: rest ∧ i = .tx m) ∨
        ∃ xs, s.pending = .receive xs :: rest ∧ i = .rx xs) := by
  cases hp : s.pending with
  | nil => simp [takeMove, hp] at h
  | cons mv rest =>
    cases mv with
    | reset k => simp [takeMove, hp] at h
    | request r =>
      obtain ⟨rfl, rfl⟩ : decode r = i ∧ { s with pending := rest } = u := by simpa [takeMove, hp] using h
      exact ⟨rest, rfl, .inl ⟨r, rfl, rfl⟩⟩
    | transmit m =>
      obtain ⟨rfl, rfl⟩ : Instr.tx m = i ∧ { s with pending := rest } = u := by simpa [takeMove, hp] using h
      exact ⟨rest, rfl, .inr (.inl ⟨m, rfl, rfl⟩)⟩
    | receive xs =>
      obtain ⟨rfl, rfl⟩ : Instr.rx xs = i ∧ { s with pending := rest } = u := by simpa [takeMove, hp] using h
      exact ⟨rest, rfl, .inr (.inr ⟨xs, rfl, rfl⟩)⟩

/-- `CFG` comes from a request: neither pseudo-operation is one. -/
theorem takeMove_cfg {i : Instr} {s u : State} (h : takeMove s = .operation i u) (hi : IsCfg i) :
    ∃ r rest, s.pending = .request r :: rest ∧ i = decode r := by
  obtain ⟨rest, -, ⟨r, hp, hd⟩ | ⟨m, -, rfl⟩ | ⟨xs, -, rfl⟩⟩ := takeMove_operation h
  · exact ⟨r, rest, hp, hd⟩
  · simp [IsCfg] at hi
  · simp [IsCfg] at hi

theorem step_of_takeMove {i : Instr} {s u : State} (h : takeMove s = .operation i u) : step s = exec i u := by
  simp [step, h]

/-! The assembler's registers (rules R15, R16). -/

theorem exec_arst_next {s t : State} (h : exec .arst s = .next t) : t = s.clearAssembler.deliver [] := by
  have := (execArst_ready (whenReady_next h).1).symm.trans h
  simpa using this.symm

/-- `FEED` of `bits`, and `RX` of samples whose bits they are, feed them to the assembler. -/
theorem exec_feeding_next {i : Instr} {s t : State} {bits : List Bit}
    (hi : i = .feed bits ∨ ∃ xs, i = .rx xs ∧ bits = demodBits Config.givenReals s.config s.samplesPerSymbol xs)
    (h : exec i s = .next t) : ∃ es, t = (s.fed bits).deliver es := by
  obtain rfl | ⟨xs, rfl, rfl⟩ := hi
  · obtain ⟨-, -, rfl⟩ := exec_feed_next h
    exact ⟨_, rfl⟩
  · have hni : ¬ IsCfg (.rx xs) := by simp [IsCfg]
    by_cases hf : fitsText s.build (s.res ++ demodBits Config.givenReals s.config s.samplesPerSymbol xs) s.text = true
    · have := (execRx_fits (exec_not_cfg_next hni h).1 hf).symm.trans h
      exact ⟨_, by simpa using this.symm⟩
    · have := (execRx_overflow (exec_not_cfg_next hni h).1 (by simpa using hf)).symm.trans h
      cases this

/-- The operations that feed nothing and do not reset the assembler leave it as it is. -/
theorem exec_assembler_unchanged {i : Instr} {s t : State} (harst : i ≠ .arst) (hfeed : ∀ bits, i ≠ .feed bits)
    (hrx : ∀ xs, i ≠ .rx xs) (h : exec i s = .next t) : t.res = s.res ∧ t.text = s.text := by
  obtain ⟨sr, bd, fh, fl, tf, -, -, ⟨-, rfl⟩ | ⟨-, rfl⟩⟩ | ⟨-, -, es, rfl⟩ | ⟨-, bits, es, hi, -⟩ | ⟨-, hi, -⟩ := exec_next h
  · simp
  · simp
  · simp
  · obtain hi | ⟨xs, hi, -⟩ := hi
    · exact absurd hi (hfeed bits)
    · exact absurd hi (hrx xs)
  · exact absurd hi harst

/-- A character for every 8 bits, and the residual less the bits they used up (rules R126, R129). -/
theorem fed_grows (s : State) (bits : List Bit) :
    ∃ new : List Byte, (s.fed bits).text = s.text ++ new ∧ new.length = (s.res.length + bits.length) / 8 ∧
      (s.fed bits).res = (s.res ++ bits).drop (8 * new.length) :=
  ⟨groupCharacters s.build (s.res ++ bits), by rw [State.fed_text, assemble_text],
    by rw [length_groupCharacters, List.length_append], by rw [State.fed_res, assemble_res, length_groupCharacters]⟩

/-- What is appended to `TEXT` is a character or the placeholder (rule R127). -/
theorem character_valid_or_placeholder (b : Build) (v : Byte) :
    b.charValid (character b v) = true ∨ character b v = placeholder := by
  by_cases hv : b.charValid v = true
  · exact .inl (by simp [character, hv])
  · exact .inr (by simp [character, hv])

theorem groupCharacters_valid_or_placeholder {b : Build} {bits : List Bit} {c : Byte} (h : c ∈ groupCharacters b bits) :
    b.charValid c = true ∨ c = placeholder := by
  obtain ⟨g, -, rfl⟩ := List.mem_map.mp h
  exact character_valid_or_placeholder b _

/-- Text that fits is within the capacity once it is decoded (rule R135). -/
theorem length_assemble_text_le {b : Build} {res : List Bit} {text : List Byte} {cap : Nat} (hcap : b.textCap = some cap)
    (hfit : fitsText b res text = true) : (assemble b res text).2.1.length ≤ cap := by
  rw [assemble_text, List.length_append, length_groupCharacters]
  simpa [fitsText, hcap] using hfit

/-! The invariant. It does not speak of the model's own fields `out` and `pending`. -/

theorem inv_deliver {s : State} (h : s.Inv) (es : List Emission) : (s.deliver es).Inv := h

theorem inv_pending {s : State} (h : s.Inv) (rest : List Move) : ({ s with pending := rest } : State).Inv := h

/-- Outside `Ready` an empty assembler is all the invariant asks. -/
theorem inv_of_empty {s : State} (hm : s.mode ≠ .ready) (hres : s.res = []) (htext : s.text = []) : s.Inv := by
  simp [State.Inv, hm, hres, htext]

theorem inv_hardwareReset (s : State) (k : Nat) : (s.hardwareReset k).Inv := inv_of_empty (by simp) rfl rfl

theorem inv_clearAssembler {s : State} (h : s.Inv) : s.clearAssembler.Inv := by
  obtain ⟨-, hready, -⟩ := h
  exact ⟨by simp, hready, by simp, by simp, by simp⟩

theorem inv_loadConfig {s : State} {c : Configuration} (h : s.Inv) (hc : invalidMask c = 0) :
    (s.loadConfig c).Inv := by
  obtain ⟨hlen, -, -, hcap, hchars⟩ := h
  have hfloor : 1 ≤ ⌊c.sampleRate * c.bitDuration⌋ := by
    obtain ⟨-, -, -, -, -, hfloor⟩ := (invalidMask_eq_zero_iff c).mp hc
    exact hfloor
  have hL : 1 ≤ samplesPerSymbolOf c := Int.toNat_le_toNat hfloor
  exact ⟨hlen, fun _ => ⟨hc, rfl, hL⟩, fun hn => absurd rfl hn, hcap, hchars⟩

theorem inv_fed {s : State} {bits : List Bit} (h : s.Inv) (hm : s.mode = .ready)
    (hfit : fitsText s.build (s.res ++ bits) s.text = true) : (s.fed bits).Inv := by
  obtain ⟨-, hready, -, -, hchars⟩ := h
  refine ⟨?_, hready, fun hn => absurd hm hn, fun cap hcap => length_assemble_text_le hcap hfit, fun c hc => ?_⟩
  · rw [State.fed_res, length_assemble_res]; omega
  · rw [State.fed_text, assemble_text, List.mem_append] at hc
    exact hc.elim (hchars c) groupCharacters_valid_or_placeholder

/-- Every accepted operation keeps the invariant. -/
theorem exec_keeps_inv {i : Instr} {s t : State} (hs : s.Inv) (h : exec i s = .next t) : t.Inv := by
  obtain ⟨sr, bd, fh, fl, tf, -, hm, ⟨hv, rfl⟩ | ⟨-, rfl⟩⟩ | ⟨-, -, es, rfl⟩ | ⟨hm, bits, es, -, hfit, rfl⟩ | ⟨-, -, rfl⟩ :=
    exec_next h
  · exact inv_loadConfig hs hv
  · obtain ⟨-, -, hempty, -⟩ := hs
    obtain ⟨hres, htext⟩ := hempty (by simp [hm])
    exact inv_of_empty (by simp) (by simpa using hres) (by simpa using htext)
  · exact inv_deliver hs es
  · exact inv_deliver (inv_fed hs hm hfit) es
  · exact inv_deliver (inv_clearAssembler hs) []

end Sys2Proof.Machine
end

section
/-! PROOFS. The state of the block (`10_state.md`): reset values, the mode, the configuration, the frame of each operation, the
assembler's registers, and the invariant every step keeps. -/

namespace Sys2Proof.Machine

/-- Settles O7: the fields of the reset state are the values of rule R22 as they stand. -/
theorem resetStateHoldsTheResetValues : Obligations.ResetStateHoldsTheResetValues :=
  ⟨rfl, rfl, rfl, rfl, rfl, rfl, rfl, charValid_default⟩

/-- Settles O58: the reset state is outside `Ready` with an empty assembler. -/
theorem resetSatisfiesTheInvariant : Obligations.ResetSatisfiesTheInvariant := inv_of_empty (by decide) rfl rfl

/-- Settles O59: an idle step changes nothing, a reset gives an empty block, and each operation keeps the invariant. -/
theorem everyStepKeepsTheInvariant : Obligations.EveryStepKeepsTheInvariant := by
  intro s t hs h
  obtain ⟨-, rfl⟩ | ⟨i, mv, rest, -, -, hi⟩ | ⟨k, rest, -, rfl⟩ := step_next h
  · exact hs
  · exact exec_keeps_inv (inv_pending hs rest) hi
  · exact inv_hardwareReset _ k

/-- Settles O54: the frame of `CFG`, and that of the operations that run in `Ready`. -/
theorem operationsWriteOnlyTheirRegisters : Obligations.OperationsWriteOnlyTheirRegisters := by
  intro i s t h
  by_cases hi : IsCfg i
  · obtain ⟨sr, bd, fh, fl, tf, rfl⟩ := hi
    obtain ⟨-, ⟨-, rfl⟩ | ⟨-, rfl⟩⟩ := exec_cfg_next h
    · exact ⟨rfl, rfl, fun hp => hp.elim, fun hn => absurd ⟨sr, bd, fh, fl, tf, rfl⟩ hn, fun _ => rfl⟩
    · exact ⟨rfl, rfl, fun hp => hp.elim, fun hn => absurd ⟨sr, bd, fh, fl, tf, rfl⟩ hn, fun _ => rfl⟩
  · obtain ⟨-, ht⟩ := exec_not_cfg_next hi h
    refine ⟨by rw [ht], by rw [ht], fun hp => ?_, fun _ => ht, fun hc => absurd hc hi⟩
    obtain ⟨es, rfl⟩ := exec_pure_next hp h
    rfl

/-- Settles O10: acceptance goes by the mode, `CFG` alone of the operations writes it, and a step is idle, an operation or a
reset. -/
theorem modeChangesOnlyByTheTable : Obligations.ModeChangesOnlyByTheTable := by
  refine ⟨State.hardwareReset_mode, fun s sr bd fh fl tf hm => ⟨fun hv => ⟨_, execCfg_valid hm hv, rfl⟩,
    fun hv => ⟨_, execCfg_invalid hm hv, rfl⟩⟩, ?_, ?_, ?_, ?_⟩
  · rintro s i hm ⟨sr, bd, fh, fl, tf, rfl⟩ t h
    exact hm (exec_cfg_next h).1
  · intro s i hm hi t h
    exact hm (exec_not_cfg_next hi h).1
  · intro s t i hm h
    by_contra hne
    exact not_isCfg_of_ready hm h (exec_changes_mode h (by rwa [hm])).1
  · intro s t h hne
    obtain ⟨-, rfl⟩ | ⟨i, mv, rest, -, htake, hexec⟩ | ⟨k, rest, hp, rfl⟩ := step_next h
    · exact absurd rfl hne
    · obtain ⟨hi, hm, ht⟩ := exec_changes_mode hexec hne
      obtain ⟨r, rest', hp, rfl⟩ := takeMove_cfg htake hi
      exact .inr ⟨r, rest', hp, hi, hm, ht⟩
    · exact .inl ⟨k, rest, hp, rfl⟩

/-- Settles O11: `CFG` does not read the two fields, and every other operation is stuck or refused with an answer that names
the mode alone. -/
theorem unloadedConfigurationIsNotRead : Obligations.UnloadedConfigurationIsNotRead := by
  intro i s c l hm
  by_cases hi : IsCfg i
  · obtain ⟨sr, bd, fh, fl, tf, rfl⟩ := hi
    exact exec_cfg_config_irrelevant s sr bd fh fl tf c l
  · left
    rw [exec_not_cfg_of_not_ready hi hm, exec_not_cfg_of_not_ready hi (by exact hm)]

/-- Settles O16: only a valid `CFG` changes what is read, and in `Ready` no `CFG` runs. -/
theorem configurationStaysAsLoaded : Obligations.ConfigurationStaysAsLoaded := by
  constructor
  · intro i s t h hne
    by_cases hi : IsCfg i
    · obtain ⟨sr, bd, fh, fl, tf, rfl⟩ := hi
      obtain ⟨hm, ⟨hv, rfl⟩ | ⟨-, rfl⟩⟩ := exec_cfg_next h
      · exact ⟨sr, bd, fh, fl, tf, rfl, hv, rfl, rfl⟩
      · exact absurd (by rw [readConfig_of_not_ready (by simp), readConfig_of_not_ready (by simp [hm])]) hne
    · exact absurd (reads_of_not_cfg_next hi h).1 hne
  · intro s t c h hc
    obtain ⟨-, rfl⟩ | ⟨i, mv, rest, -, -, hexec⟩ | ⟨k, rest, hp, -⟩ := step_next h
    · exact .inl ⟨hc, rfl⟩
    · have hi : ¬ IsCfg i := not_isCfg_of_ready (by exact ready_of_readConfig hc) hexec
      obtain ⟨hconfig, hL⟩ := reads_of_not_cfg_next hi hexec
      exact .inl ⟨hconfig.trans hc, hL⟩
    · exact .inr ⟨k, rest, hp⟩

/-- Settles O57: by the move taken, then by the operation it issues. -/
theorem textOnlyGrowsOrIsEmptied : Obligations.TextOnlyGrowsOrIsEmptied := by
  refine fun s t h => ⟨fun hp => ?_, fun k rest hp => ?_, fun i u hu => ?_⟩
  · obtain rfl : s = t := by simpa using (step_idle hp).symm.trans h
    exact ⟨rfl, rfl⟩
  · obtain rfl : ({ s with pending := rest } : State).hardwareReset k = t := by simpa using (step_reset hp).symm.trans h
    exact ⟨rfl, rfl⟩
  · have hexec : exec i u = .next t := (step_of_takeMove hu).symm.trans h
    obtain ⟨rest, rfl, -⟩ := takeMove_operation hu
    refine ⟨?_, fun harst hfeed hrx => ?_, fun bits hi => ?_⟩
    · rintro rfl
      obtain rfl := exec_arst_next hexec
      exact ⟨rfl, rfl⟩
    · obtain ⟨hres, htext⟩ := exec_assembler_unchanged harst hfeed hrx hexec
      exact ⟨hres, htext⟩
    · obtain ⟨es, rfl⟩ := exec_feeding_next (s := { s with pending := rest }) hi hexec
      exact fed_grows { s with pending := rest } bits

end Sys2Proof.Machine
end

section
/-! SUPPORT. The memory model (`20_memory.md`): a group of eight bits is a byte, what each side of the block reads, and which
amplitudes reach `smp_out`. -/

namespace Sys2Proof.Machine

/-! Bytes (rule R33). -/

/-- Bit `k` in time of a byte is its bit `7 - k`. -/
theorem getElem_byteBits (v : Byte) (k : Fin 8) : (byteBits v)[k.val]? = some (v.getLsbD (7 - k.val)) := by
  fin_cases k <;> rfl

/-- Every group of eight bits is a byte's: that of the group's value. -/
theorem exists_byteBits_of_length_eight {g : List Bit} (h : g.length = 8) : ∃ v : Byte, byteBits v = g := by
  have hlt : bitsValue g < 2 ^ 8 := h ▸ bitsValue_lt g
  refine ⟨BitVec.ofNat 8 (bitsValue g), bitsValue_injective (by rw [length_byteBits, h]) ?_⟩
  rw [bitsValue_byteBits, BitVec.toNat_ofNat, Nat.mod_eq_of_lt hlt]

/-- The value of a byte as the sum over its bits in time. -/
theorem sum_byteBits (v : Byte) : ∑ k ∈ Finset.range 8, ((byteBits v).getD k false).toNat * 2 ^ (7 - k) = v.toNat :=
  (sum_eq_bitsValue (byteBits v)).trans (bitsValue_byteBits v)

/-! The next state of the operations that deliver samples or bits and change no register (rule R38). -/

theorem exec_synth_next {s t : State} {f d r : Q} (h : exec (.synth f d r) s = .next t) :
    t = s.deliver ((tone f r (toneLength d r)).map .sample) ∨
      t = (s.deliver []).raise (.invalidParameter (degenerateMask f d r)) := by
  have hm : s.mode = .ready := (whenReady_next h).1
  by_cases hv : degenerateMask f d r = 0
  · have := (execSynth_positive hm hv).symm.trans h
    exact .inl (by simpa using this.symm)
  · have := (execSynth_degenerate hm hv).symm.trans h
    exact .inr (by simpa using this.symm)

theorem exec_enc_next {s t : State} {m : List Byte} (h : exec (.enc m) s = .next t) :
    s.mode = .ready ∧ t = s.deliver ((encodeMessage s.build.encPolicy m).map .bit) := by
  have hm : s.mode = .ready := (whenReady_next h).1
  have := (execEnc_ready hm m).symm.trans h
  exact ⟨hm, by simpa using this.symm⟩

theorem exec_tx_next {s t : State} {m : List Byte} (h : exec (.tx m) s = .next t) :
    s.mode = .ready ∧ t = s.deliver ((encodeMessage s.build.encPolicy m).map .bit
      ++ (modulate s.config s.samplesPerSymbol (encodeMessage s.build.encPolicy m)).map .sample) := by
  obtain ⟨u, -, hu, -, -⟩ := thenIssue_next h
  have hm : s.mode = .ready := (whenReady_next hu).1
  have := (execTx_ready hm m).symm.trans h
  exact ⟨hm, by simpa using this.symm⟩

/-! The two sides of the block (rule R43). -/

theorem isPure_of_isTransmitSide {i : Instr} (h : IsTransmitSide i) : IsPure i := by
  cases i with
  | enc _ | mod _ | tx _ => trivial
  | _ => exact h.elim

theorem not_isCfg_of_isReceiveSide {i : Instr} (h : IsReceiveSide i) : ¬ IsCfg i := by
  rintro ⟨sr, bd, fh, fl, tf, rfl⟩
  exact h

/-- After an operation that changes no state every operation answers as before (rule R38). -/
theorem exec_after_pure {i : Instr} {s t : State} (hi : IsPure i) (h : exec i s = .next t) (j : Instr) :
    exec j t = exec j s := by
  obtain ⟨es, rfl⟩ := exec_pure_next hi h
  exact exec_deliver j s es

/-- The transmit side reads the mode, the configuration and the parameters, which the receive side does not write: what the
assembler's registers hold makes no difference to what is delivered. -/
theorem exec_transmitSide_assembler_irrelevant {i : Instr} {s u : State} (hi : IsTransmitSide i) (h : exec i s = .next u)
    (res : List Bit) (text : List Byte) (out : List Emission) :
    ∃ v, exec i { s with res := res, text := text, out := out } = .next v ∧ v.out = u.out := by
  cases i with
  | enc m =>
    obtain ⟨hm, rfl⟩ := exec_enc_next h
    exact ⟨_, execEnc_ready (by exact hm) m, rfl⟩
  | mod bits =>
    obtain ⟨hm, rfl⟩ := exec_mod_next h
    exact ⟨_, execMod_ready (by exact hm) bits, rfl⟩
  | tx m =>
    obtain ⟨hm, rfl⟩ := exec_tx_next h
    exact ⟨_, execTx_ready (by exact hm) m, rfl⟩
  | _ => exact hi.elim

/-! The amplitudes of `smp_out` (rule R31). -/

/-- What stands on `smp_out` after fewer deliveries stood there after all of them. -/
theorem smpOut_subset_of_sublist {es fs : List Emission} (h : es.Sublist fs) : smpOut es ⊆ smpOut fs :=
  (h.filterMap _).subset

theorem exists_sinTone_of_mem_tone {f r : Q} {n : Nat} {a : Amp} (h : a ∈ tone f r n) : ∃ i, a = sinTone f i r := by
  obtain ⟨i, -, rfl⟩ := List.mem_map.mp h
  exact ⟨i, rfl⟩

theorem exists_sinTone_of_mem_modulate {c : Configuration} {l : Nat} {bits : List Bit} {a : Amp}
    (h : a ∈ modulate c l bits) : ∃ f i r, a = sinTone f i r := by
  obtain ⟨b, -, hb⟩ := List.mem_flatMap.mp h
  exact ⟨_, (exists_sinTone_of_mem_tone hb).imp fun _ hi => ⟨_, hi⟩⟩

/-- Every amplitude an operation delivers is a sample of a tone: `SYNTH`, `MOD` and `TX` deliver tones, and the other operations
no amplitude. -/
theorem exec_delivers_tone_samples {i : Instr} {s t : State} (h : exec i s = .next t) {a : Amp} (ha : a ∈ smpOut t.out) :
    ∃ f n r, a = sinTone f n r := by
  cases i with
  | cfg sr bd fh fl tf =>
    obtain ⟨-, ⟨-, rfl⟩ | ⟨-, rfl⟩⟩ := exec_cfg_next h
    · simp at ha
    · simp at ha
  | synth f d r =>
    obtain rfl | rfl := exec_synth_next h
    · obtain ⟨n, hn⟩ := exists_sinTone_of_mem_tone (by simpa using ha)
      exact ⟨f, n, r, hn⟩
    · simp at ha
  | enc m =>
    obtain ⟨-, rfl⟩ := exec_enc_next h
    simp at ha
  | mod bits =>
    obtain ⟨-, rfl⟩ := exec_mod_next h
    exact exists_sinTone_of_mem_modulate (by simpa using ha)
  | demod xs =>
    obtain ⟨-, rfl⟩ := exec_demod_next h
    simp at ha
  | feed bits =>
    obtain ⟨-, -, rfl⟩ := exec_feed_next h
    simp [smpOut_assemble] at ha
  | arst =>
    obtain rfl := exec_arst_next h
    simp at ha
  | tx m =>
    obtain ⟨-, rfl⟩ := exec_tx_next h
    exact exists_sinTone_of_mem_modulate (by simpa using ha)
  | rx xs =>
    obtain ⟨u, v, hu, hv, rfl⟩ := thenIssue_next h
    obtain ⟨-, rfl⟩ := exec_demod_next hu
    obtain ⟨-, -, rfl⟩ := exec_feed_next hv
    simp [smpOut_assemble] at ha
  | reserved => cases h

theorem outputInRange_of_exec_next {i : Instr} {s t : State} (h : exec i s = .next t) : t.OutputInRange := by
  intro a ha
  obtain ⟨f, n, r, rfl⟩ := exec_delivers_tone_samples h ha
  exact ⟨abs_ampVal_sinTone_le f n r, ampWf_sinTone f n r⟩

theorem outputInRange_hardwareReset {s : State} (h : s.OutputInRange) (k : Nat) : (s.hardwareReset k).OutputInRange :=
  fun a ha => h a (smpOut_subset_of_sublist (List.take_sublist k s.out) ha)

end Sys2Proof.Machine
end

section
/-! PROOFS. The memory model (`20_memory.md`): byte order, the independence of operations, and the range of amplitudes. -/

namespace Sys2Proof.Machine

/-- Settles O24: a byte's bits by position, and a group as the bits of a byte. -/
theorem bytesAreMostSignificantBitFirst : Obligations.BytesAreMostSignificantBitFirst := by
  refine ⟨fun v => ⟨length_byteBits v, getElem_byteBits v, val8_byteBits v⟩, fun g hg => ?_⟩
  obtain ⟨v, rfl⟩ := exists_byteBits_of_length_eight hg
  rw [val8_byteBits]
  exact ⟨(sum_byteBits v).symm, rfl⟩

/-- Settles O55: a pure operation changes only what is delivered, and no operation reads that. -/
theorem pureOperationsLeaveNoTrace : Obligations.PureOperationsLeaveNoTrace :=
  fun _ j _ _ hi h => exec_after_pure hi h j

/-- Settles O56: the transmit side writes no register, and the receive side writes only the assembler's, which the transmit
side does not read. -/
theorem sidesDoNotInterfere : Obligations.SidesDoNotInterfere := by
  refine fun i j s t hi hj => ⟨fun h => exec_after_pure (isPure_of_isTransmitSide hi) h j, fun h u hu => ?_⟩
  obtain ⟨-, ht⟩ := exec_not_cfg_next (not_isCfg_of_isReceiveSide hj) h
  rw [ht]
  exact exec_transmitSide_assembler_irrelevant hi hu t.res t.text t.out

/-- Settles O60: an idle step changes nothing, an operation delivers samples of tones only, and a reset cuts a delivery short. -/
theorem everyStepKeepsOutputInRange : Obligations.EveryStepKeepsOutputInRange := by
  refine ⟨by simp [State.OutputInRange, State.reset], fun s t hs h => ?_⟩
  obtain ⟨-, rfl⟩ | ⟨i, mv, rest, -, -, hexec⟩ | ⟨k, rest, -, rfl⟩ := step_next h
  · exact hs
  · exact outputInRange_of_exec_next hexec
  · exact outputInRange_hardwareReset (s := { s with pending := rest }) hs k

end Sys2Proof.Machine
end

section
/-! SUPPORT. Encoding (`30_encoding.md`): which operation a selector code picks, the move a step takes, and what the two
text-to-bit policies have in common. -/

namespace Sys2Proof

/-! Selector codes (rules R57, R58, R62). -/

theorem selector_cases (c : Selector) :
    c = 0b000#3 ∨ c = 0b001#3 ∨ c = 0b010#3 ∨ c = 0b011#3 ∨ c = 0b100#3 ∨ c = 0b101#3 ∨ c = 0b110#3 ∨ c = 0b111#3 := by
  revert c; decide

/-- The operation a request asks for has one selector code, the request's. -/
@[simp] theorem selectors_decode (r : Request) : selectors (decode r) = [r.cmd] := by
  obtain h | h | h | h | h | h | h | h := selector_cases r.cmd <;> (rw [decode, h]; rfl)

/-- The round trip of every operation, by its constructor. -/
theorem roundTrip : ∀ i : Instr, Laws.RoundTrip.Statement i
  | .cfg sr bd fh fl tf => Laws.RoundTrip.cfg sr bd fh fl tf
  | .synth f d r => Laws.RoundTrip.synth f d r
  | .enc m => Laws.RoundTrip.enc m
  | .mod bits => Laws.RoundTrip.mod bits
  | .demod xs => Laws.RoundTrip.demod xs
  | .feed bits => Laws.RoundTrip.feed bits
  | .arst => Laws.RoundTrip.arst
  | .tx m => Laws.RoundTrip.tx m
  | .rx xs => Laws.RoundTrip.rx xs
  | .reserved => Laws.RoundTrip.reserved

theorem selectors_of_encode {i : Instr} {r : Request} (h : encode i = some r) : selectors i = [r.cmd] := by
  have hi : Laws.RoundTrip.Statement i := roundTrip i
  rw [Laws.RoundTrip.Statement, h] at hi
  exact hi.1

theorem decode_of_encode {i : Instr} {r : Request} (h : encode i = some r) : decode r = i := by
  have hi : Laws.RoundTrip.Statement i := roundTrip i
  rw [Laws.RoundTrip.Statement, h] at hi
  exact hi.2

/-- An operation without a request is issued as two (rule R62). -/
theorem length_selectors_of_encode_none {i : Instr} (h : encode i = none) : (selectors i).length = 2 := by
  have hi : Laws.RoundTrip.Statement i := roundTrip i
  rwa [Laws.RoundTrip.Statement, h] at hi

theorem encode_eq_none_iff (i : Instr) : encode i = none ↔ (∃ m, i = .tx m) ∨ ∃ xs, i = .rx xs := by
  cases i with
  | tx m => exact iff_of_true rfl (.inl ⟨m, rfl⟩)
  | rx xs => exact iff_of_true rfl (.inr ⟨xs, rfl⟩)
  | _ => simp [encode]

/-- What a request asks for has a request of its own, with the same code. -/
theorem exists_encode_decode (r : Request) : ∃ r', encode (decode r) = some r' ∧ r'.cmd = r.cmd := by
  cases he : encode (decode r) with
  | none => simpa using length_selectors_of_encode_none he
  | some r' => exact ⟨r', rfl, by simpa using (selectors_of_encode he).symm⟩

namespace Machine

/-! The move a step takes (rules R47, R62). -/

theorem step_request {s : State} {r : Request} {rest : List Move} (h : s.pending = .request r :: rest) :
    step s = exec (decode r) { s with pending := rest } := step_of_takeMove (by simp [takeMove, h])

theorem step_transmit {s : State} {m : List Byte} {rest : List Move} (h : s.pending = .transmit m :: rest) :
    step s = exec (.tx m) { s with pending := rest } := step_of_takeMove (by simp [takeMove, h])

theorem step_receive {s : State} {xs : List Sample} {rest : List Move} (h : s.pending = .receive xs :: rest) :
    step s = exec (.rx xs) { s with pending := rest } := step_of_takeMove (by simp [takeMove, h])

/-- The bit a verdict's window delivers, if any (rule R113). -/
@[simp] theorem bitOut_verdictEmissions (v : Verdict) : bitOut (verdictEmissions v) = v.bit?.toList := by
  cases v <;> rfl

/-! The two policies (rules R52 to R54). -/

theorem exec_enc_of_policy {s : State} {p : EncPolicy} (hm : s.mode = .ready) (hp : s.build.encPolicy = p) (m : List Byte) :
    exec (.enc m) s = .next { s with out := (encodeMessage p m).map .bit } := hp ▸ execEnc_ready hm m

theorem encodeElide_of_zero {m : List Byte} (h : messageValue m = 0) : encodeElide m = [false] := if_pos h

theorem encodeElide_of_ne_zero {m : List Byte} (h : messageValue m ≠ 0) : encodeElide m = numeral (messageValue m) :=
  if_neg h

theorem head_encodeElide {m : List Byte} (h : messageValue m ≠ 0) : (encodeElide m).head? = some true := by
  rw [encodeElide_of_ne_zero h, head_numeral _ h]

/-- Under `ELIDE` too the bits are a numeral of the message's value. -/
@[simp] theorem bitsValue_encodeElide (m : List Byte) : bitsValue (encodeElide m) = messageValue m := by
  by_cases h : messageValue m = 0
  · rw [encodeElide_of_zero h, h]; rfl
  · rw [encodeElide_of_ne_zero h, bitsValue_numeral]

theorem bitsValue_ne_zero_of_head {bs : List Bit} (h : bs.head? = some true) : bitsValue bs ≠ 0 :=
  ((Nat.two_pow_pos _).trans_le (le_bitsValue h)).ne'

theorem head_encodeFixed8_iff (m : List Byte) :
    (encodeFixed8 m).head? = some true ↔ ∃ b rest, m = b :: rest ∧ b.getLsbD 7 = true := by
  cases m with
  | nil => simp [encodeFixed8]
  | cons b rest => simp [encodeFixed8, byteBits]

/-- The two policies agree exactly when `FIXED8` gives no leading zero: both give a numeral of the message's value, and `ELIDE`
the one without leading zeros. A message of value 0 has 8 zeros for each byte under `FIXED8` and one under `ELIDE`. -/
theorem encodeFixed8_eq_encodeElide_iff (m : List Byte) :
    encodeFixed8 m = encodeElide m ↔ (encodeFixed8 m).head? = some true := by
  constructor
  · intro h
    by_cases hv : messageValue m = 0
    · have hlen : 8 * m.length = 1 := by
        simpa [encodeElide_of_zero hv] using congrArg List.length h
      omega
    · rw [h, head_encodeElide hv]
  · intro h
    have hv : messageValue m ≠ 0 := bitsValue_encodeFixed8 m ▸ bitsValue_ne_zero_of_head h
    exact numeral_unique h (head_encodeElide hv) (by rw [bitsValue_encodeFixed8, bitsValue_encodeElide])

theorem getLsbD_seven_of_lt {b : Byte} (h : b.toNat < 128) : b.getLsbD 7 = false :=
  Nat.testBit_lt_two_pow h

end Machine

end Sys2Proof
end

section
/-! PROOFS. Encoding (`30_encoding.md`): selector codes, the reserved selector, status codes, and the two text-to-bit
policies. -/

namespace Sys2Proof.Machine

/-- Settles O4: the round trip of each operation, and that a request and the operation it asks for have one selector code. -/
theorem encodeDecodeAgree : Obligations.EncodeDecodeAgree := by
  refine ⟨fun i r h => ⟨decode_of_encode h, selectors_of_encode h⟩, encode_eq_none_iff, fun r => ?_, fun i j r hi hj => ?_⟩
  · obtain ⟨r', he, hcmd⟩ := exists_encode_decode r
    exact ⟨r', he, hcmd, decode_of_encode he⟩
  · exact (decode_of_encode hi).symm.trans (decode_of_encode hj)

/-- Settles O25: the bits of each byte by their position. -/
theorem fixed8SendsEveryByteWhole : Obligations.Fixed8SendsEveryByteWhole := by
  intro s m hm hp
  refine ⟨encodeFixed8 m, exec_enc_of_policy hm hp m, length_encodeFixed8 m, getElem_encodeFixed8 m, ?_, ?_⟩
  · rintro rfl; rfl
  · rintro rfl; rfl

/-- Settles O26: the bits are the numeral of the message's value that has no leading zero, and there is one such numeral. -/
theorem elideSendsTheNumeral : Obligations.ElideSendsTheNumeral := by
  intro s m hm hp
  refine ⟨encodeElide m, exec_enc_of_policy hm hp m, ?_⟩
  rw [sum_eq_messageValue]
  refine ⟨encodeElide_of_zero, fun hpos => ?_⟩
  have hhead : (encodeElide m).head? = some true := head_encodeElide hpos.ne'
  have hvalue : bitsValue (encodeElide m) = messageValue m := bitsValue_encodeElide m
  exact ⟨hhead, hvalue ▸ le_bitsValue hhead, hvalue ▸ bitsValue_lt _, (sum_eq_bitsValue _).trans hvalue,
    encodeElide_eq_dropWhile hpos.ne'⟩

/-- Settles O27: the policies agree when `FIXED8` gives no leading zero, that is when the first byte has its top bit set. -/
theorem policiesAgreeOnlyAboveHalf : Obligations.PoliciesAgreeOnlyAboveHalf := by
  have agree (m : List Byte) :
      encodeMessage .fixed8 m = encodeMessage .elide m ↔ ∃ b rest, m = b :: rest ∧ b.getLsbD 7 = true :=
    (encodeFixed8_eq_encodeElide_iff m).trans (head_encodeFixed8_iff m)
  refine ⟨fun s m hm => exec_enc_of_policy hm rfl m, rfl, agree, fun m hlow h => ?_⟩
  obtain ⟨b, rest, rfl, htop⟩ := (agree m).mp h
  exact Bool.false_ne_true ((getLsbD_seven_of_lt (hlow b List.mem_cons_self)).symm.trans htop)

/-- Settles O1: a step by each kind of move. -/
theorem stepRunsTheNextMove : Obligations.StepRunsTheNextMove :=
  fun _ _ => ⟨fun _ => step_request, fun _ => step_transmit, fun _ => step_receive, fun _ => step_reset, step_idle⟩

/-- Settles O2: the ten words as the decoder reads them. -/
theorem selectorWordsDecode : Obligations.SelectorWordsDecode :=
  ⟨rfl, rfl, rfl, rfl, rfl, rfl, rfl, rfl, rfl, rfl⟩

/-- Settles O3: the decoder's row for each code. -/
theorem eachCodeSelectsItsOperation : Obligations.EachCodeSelectsItsOperation := by
  intro r
  refine ⟨?_, ?_, ?_, ?_, ?_, ?_, ?_, ?_⟩ <;> (intro h; rw [decode, h]; rfl)

/-- Settles O5: code `000` decodes to the reserved row, and that row has no other code. -/
theorem reservedSelectorIsRefused : Obligations.ReservedSelectorIsRefused := by
  constructor
  · intro r s hr
    have hd : decode r = .reserved := (eachCodeSelectsItsOperation r).1 hr
    exact ⟨hd, by rw [hd]; rfl⟩
  · intro r hr hd
    have hsel : selectors .reserved = [r.cmd] := hd ▸ selectors_decode r
    exact hr (by simpa [selectors] using hsel.symm)

/-- Settles O6: the tables of rules R63 and R64, and the bit each verdict stands for. -/
theorem statusCodes : Obligations.StatusCodes := by
  refine ⟨rfl, rfl, rfl, rfl, rfl, rfl, fun v => ?_, fun m => ?_, fun v => ?_⟩
  · cases v <;> decide
  · cases m <;> decide
  · rw [bitOut_verdictEmissions]
    cases v <;> decide

end Sys2Proof.Machine
end

section
/-! SUPPORT. Configuration (`40_configuration.md`): the validity mask clause by clause, why its factor clause is there, and which
operations are accepted once a `CFG` has run. -/

namespace Sys2Proof.Machine

/-! The mask of `CFG` (rule R71). -/

/-- The bits of the mask as propositions: bits 0 to 4 are set when their clause fails, bit 5 when its own fails and the two it
rests on hold. -/
theorem invalidMask_getLsbD_iff (c : Configuration) :
    ((invalidMask c).getLsbD 0 = true ↔ ¬ 0 < c.sampleRate) ∧ ((invalidMask c).getLsbD 1 = true ↔ ¬ 0 < c.bitDuration) ∧
    ((invalidMask c).getLsbD 2 = true ↔ ¬ 0 < c.freqHigh) ∧ ((invalidMask c).getLsbD 3 = true ↔ ¬ 0 < c.freqLow) ∧
    ((invalidMask c).getLsbD 4 = true ↔ ¬ (0 < c.thresholdFactor ∧ c.thresholdFactor < 1)) ∧
    ((invalidMask c).getLsbD 5 = true ↔
      0 < c.sampleRate ∧ 0 < c.bitDuration ∧ ¬ 1 ≤ ⌊c.sampleRate * c.bitDuration⌋) := by
  obtain ⟨h0, h1, h2, h3, h4, h5⟩ := invalidMask_bits c
  rw [h0, h1, h2, h3, h4, h5]
  simp only [Bool.not_eq_true', Bool.and_eq_true, Bool.and_eq_false_iff, decide_eq_false_iff_not, decide_eq_true_eq,
    and_assoc, ← not_and_or, true_and]
  exact Iff.rfl

/-- The share of the high energy in the total lies in `[0, 1]`, and a factor outside `(0, 1)` leaves nothing of that range on
either side of the two bounds it would have to pass. -/
theorem realClassify_ambig_of_factor_out_of_range {f a b : ℝ} (ha : 0 ≤ a) (hb : 0 ≤ b) (hf : f ≤ 0 ∨ 1 ≤ f) :
    realClassify f a b = .ambig := by
  have hmax : 1 ≤ max f (1 - f) := le_max_iff.mpr (hf.symm.imp_right fun h => by linarith)
  have hmin : min f (1 - f) ≤ 0 := min_le_iff.mpr (hf.imp_right fun h => by linarith)
  cases hv : realClassify f a b with
  | ambig => rfl
  | one =>
    obtain ⟨-, hshare⟩ := (realClassify_eq_one_iff ha hb).mp hv
    have : a / (a + b) ≤ 1 := div_le_one_of_le₀ (by linarith) (by linarith)
    linarith
  | zero =>
    obtain ⟨-, hshare⟩ := (realClassify_eq_zero_iff ha hb).mp hv
    have : 0 ≤ a / (a + b) := by positivity
    linarith

/-! Acceptance by the mode (rules R72, R73, R135). -/

/-- Only a finite `TEXT_CAP` can be too small. -/
theorem textCap_ne_none_of_not_fits {b : Build} {res : List Bit} {text : List Byte} (h : fitsText b res text = false) :
    b.textCap ≠ none := by
  intro hcap
  simp [fitsText_unbounded hcap] at h

/-- What an operation other than `CFG` and the reserved selector answers in `Ready`: a next state, but for `FEED` and `RX` past a
finite `TEXT_CAP`. -/
theorem exec_of_ready {i : Instr} {s : State} (hm : s.mode = .ready) (hi : ¬ IsCfg i) (hr : i ≠ .reserved) :
    (∃ u, exec i s = .next u) ∨
      ((∃ bits, i = .feed bits) ∨ ∃ xs, i = .rx xs) ∧ exec i s = .refused .textCapacity ∧ s.build.textCap ≠ none := by
  cases i with
  | cfg sr bd fh fl tf => exact absurd ⟨sr, bd, fh, fl, tf, rfl⟩ hi
  | reserved => exact absurd rfl hr
  | synth f d r =>
    by_cases hv : degenerateMask f d r = 0
    · exact .inl ⟨_, execSynth_positive hm hv⟩
    · exact .inl ⟨_, execSynth_degenerate hm hv⟩
  | enc m => exact .inl ⟨_, execEnc_ready hm m⟩
  | mod bits => exact .inl ⟨_, execMod_ready hm bits⟩
  | demod xs => exact .inl ⟨_, execDemod_ready hm xs⟩
  | arst => exact .inl ⟨_, execArst_ready hm⟩
  | tx m => exact .inl ⟨_, execTx_ready hm m⟩
  | feed bits =>
    cases hfit : fitsText s.build (s.res ++ bits) s.text with
    | true => exact .inl ⟨_, execFeed_fits hm hfit⟩
    | false => exact .inr ⟨.inl ⟨bits, rfl⟩, execFeed_overflow hm hfit, textCap_ne_none_of_not_fits hfit⟩
  | rx xs =>
    cases hfit : fitsText s.build (s.res ++ demodBits Config.givenReals s.config s.samplesPerSymbol xs) s.text with
    | true => exact .inl ⟨_, execRx_fits hm hfit⟩
    | false => exact .inr ⟨.inr ⟨xs, rfl⟩, execRx_overflow hm hfit, textCap_ne_none_of_not_fits hfit⟩

/-- In `Failed` no operation is accepted: `CFG` needs `Unconfigured`, every other one `Ready`. -/
theorem notAccepted_of_failed {s : State} (hm : s.mode = .failed) (i : Instr) : NotAccepted (exec i s) := by
  intro t h
  by_cases hi : IsCfg i
  · obtain ⟨sr, bd, fh, fl, tf, rfl⟩ := hi
    have hu : s.mode = .unconfigured := (exec_cfg_next h).1
    simp [hm] at hu
  · have hready : s.mode = .ready := (exec_not_cfg_next hi h).1
    simp [hm] at hready

end Sys2Proof.Machine
end

section
/-! PROOFS. Configuration (`40_configuration.md`): the validity mask, and the effect of a `CFG` in each mode. -/

namespace Sys2Proof.Machine

/-- Settles O12: each bit by its clause, the mask as a whole, and that a factor outside its range classifies nothing. -/
theorem invalidMaskNamesTheFailingClauses : Obligations.InvalidMaskNamesTheFailingClauses := by
  refine ⟨fun c => ?_, fun factor eHigh eLow hhigh hlow hf => realClassify_ambig_of_factor_out_of_range hhigh hlow hf⟩
  obtain ⟨h0, h1, h2, h3, h4, h5⟩ := invalidMask_getLsbD_iff c
  exact ⟨h0, h1, h2, h3, h4, h5, invalidMask_eq_zero_iff c⟩

/-- Settles O13: the loaded state is in `Ready`, and there every operation but `CFG` and the reserved selector is answered. -/
theorem validCfgLoadsTheConfiguration : Obligations.ValidCfgLoadsTheConfiguration := by
  intro s sr bd fh fl tf hm hv
  refine ⟨s.loadConfig ⟨sr, bd, fh, fl, tf⟩, execCfg_valid hm hv, rfl, fun i hi hr => ?_⟩
  exact exec_of_ready (State.loadConfig_mode s _) hi hr

/-- Settles O14: the error raised puts the block in `Failed`, where nothing is read and nothing accepted. -/
theorem invalidCfgFailsTheBlock : Obligations.InvalidCfgFailsTheBlock := by
  intro s sr bd fh fl tf hm hv
  exact ⟨_, execCfg_invalid hm hv, rfl, rfl, rfl, notAccepted_of_failed (State.raise_configurationError_mode _ _)⟩

/-- Settles O15: `CFG` is accepted in `Unconfigured` only. -/
theorem cfgIsNotAcceptedTwice : Obligations.CfgIsNotAcceptedTwice :=
  fun _ _ _ _ _ _ hm => whenUnconfigured_of_configured hm _

end Sys2Proof.Machine
end

section
/-! SUPPORT. The tone synthesizer (`41_tone_synthesizer.md`): what `SYNTH` answers on positive and on degenerate operands, and a
sample as a function of the fractional part of its phase. -/

namespace Sys2Proof.Machine

/-! `SYNTH` in `Ready` (rules R81 to R83). -/

theorem exec_synth_of_positive {s : State} (hm : s.mode = .ready) {f d r : Q} (hf : 0 < f) (hd : 0 < d) (hr : 0 < r) :
    exec (.synth f d r) s = .next (s.deliver ((tone f r (toneLength d r)).map .sample)) :=
  execSynth_positive hm ((degenerateMask_eq_zero_iff f d r).mpr ⟨hf, hd, hr⟩)

theorem degenerateMask_ne_zero {f d r : Q} (h : f ≤ 0 ∨ d ≤ 0 ∨ r ≤ 0) : degenerateMask f d r ≠ 0 := by
  intro hmask
  obtain ⟨hf, hd, hr⟩ := (degenerateMask_eq_zero_iff f d r).mp hmask
  obtain h | h | h := h
  · exact h.not_gt hf
  · exact h.not_gt hd
  · exact h.not_gt hr

/-- The bits of the mask as propositions: one for each cause of rule R83. -/
theorem degenerateMask_getLsbD_iff (f d r : Q) :
    ((degenerateMask f d r).getLsbD 0 = true ↔ f ≤ 0) ∧ ((degenerateMask f d r).getLsbD 1 = true ↔ d ≤ 0) ∧
    ((degenerateMask f d r).getLsbD 2 = true ↔ r ≤ 0) := by
  obtain ⟨h0, h1, h2⟩ := degenerateMask_bits f d r
  rw [h0, h1, h2]
  exact ⟨decide_eq_true_iff, decide_eq_true_iff, decide_eq_true_iff⟩

/-- The burst of a bit is what `SYNTH` computes from the configuration's own values (rules R12, R87). -/
theorem burst_samplesPerSymbolOf (c : Configuration) (b : Bit) :
    burst c (samplesPerSymbolOf c) b
      = tone (if b then c.freqHigh else c.freqLow) c.sampleRate (toneLength c.bitDuration c.sampleRate) := rfl

/-! The phase of a sample (rules R84, R86). -/

theorem frac_eq_fract (x : Q) : frac x = Int.fract x := rfl

/-- An amplitude depends on the fractional part of its phase alone. -/
theorem ampSine_congr {x y : Q} (h : Int.fract x = Int.fract y) (c : Q) : ampSine c x = ampSine c y := by
  rw [← frac_eq_fract, ← frac_eq_fract] at h
  rw [ampSine, ampSine, h]

/-- Whole turns leave an amplitude as it is. -/
theorem ampSine_add_intCast (c x : Q) (z : ℤ) : ampSine c (x + z) = ampSine c x :=
  ampSine_congr (Int.fract_add_intCast x z) c

theorem sinTone_congr {f g r q : Q} {i j : Nat} {z : ℤ} (h : f * i / r = g * j / q + z) : sinTone f i r = sinTone g j q := by
  rw [sinTone, h, ampSine_add_intCast, sinTone]

theorem ampSine_zero (c : Q) : ampSine c 0 = [] := by
  simp [ampSine, frac_eq_fract, sineHalfTurn]

/-- Zero is written as the empty sum only (log 23). -/
theorem sinTone_eq_nil {f r : Q} {i : Nat} (h : realTone f i r = 0) : sinTone f i r = [] := by
  have hval : ampVal (sinTone f i r) = ampVal (ampSine 1 0) := by rw [ampVal_sinTone, h, ampSine_zero, ampVal_nil]
  exact (ampSine_one_injective _ _ hval).trans (ampSine_zero 1)

theorem realTone_zero (f r : Q) : realTone f 0 r = 0 := by simp [realTone]

/-- The real tone at half the rate is `sin(π · i)` (rule R86 (d)). -/
theorem realTone_half {r : Q} (hr : r ≠ 0) (i : Nat) : realTone (r / 2) i r = 0 := by
  have hr' : (r : ℝ) ≠ 0 := Rat.cast_ne_zero.mpr hr
  have hangle : 2 * Real.pi * ((r / 2 : Q) : ℝ) * i / r = i * Real.pi := by push_cast; field_simp
  rw [realTone, hangle, Real.sin_nat_mul_pi]

/-- The real tone at `R - f` runs through the angles of the tone at `f` backwards (rule R86 (c)). -/
theorem realTone_sub {r : Q} (hr : r ≠ 0) (f : Q) (i : Nat) : realTone (r - f) i r = -realTone f i r := by
  have hr' : (r : ℝ) ≠ 0 := Rat.cast_ne_zero.mpr hr
  have hangle : 2 * Real.pi * ((r - f : Q) : ℝ) * i / r = i * (2 * Real.pi) - 2 * Real.pi * f * i / r := by
    push_cast; field_simp
  rw [realTone, hangle, Real.sin_nat_mul_two_pi_sub, realTone]

/-- The phase accumulator has dropped whole turns only (rule R84). -/
theorem phase_eq_fract (f r : Q) (i : Nat) : phase f r i = Int.fract (f * i / r) := by
  induction i with
  | zero => simp [phase]
  | succ i ih =>
    calc phase f r (i + 1) = Int.fract (Int.fract (f * i / r) + f / r) := by rw [phase, ih, frac_eq_fract]
      _ = Int.fract (f * i / r + f / r) := Int.fract_eq_fract.mpr ⟨-⌊f * i / r⌋, by rw [Int.fract]; push_cast; ring⟩
      _ = Int.fract (f * (i + 1 : Nat) / r) := by push_cast; ring_nf

end Sys2Proof.Machine
end

section
/-! PROOFS. The tone synthesizer (`41_tone_synthesizer.md`): the result of `SYNTH`, its errors and purity, the phase accumulator
and the properties of tones, and the bursts as tones. -/

namespace Sys2Proof.Machine

/-- Settles O17: the answer on positive operands is the tone, each of whose samples has the value of rule R81. -/
theorem synthDeliversTheSampledSine : Obligations.SynthDeliversTheSampledSine := by
  intro s f d r hm hf hd hr
  refine ⟨tone f r (toneLength d r), exec_synth_of_positive hm hf hd hr, length_tone _ _ _, fun i h => ?_⟩
  rw [getElem_tone, ampVal_sinTone, realTone, mul_div_assoc]

/-- Settles O18: the mask by its causes, and that raising `InvalidParameter` changes only what is delivered. -/
theorem synthRejectsDegenerateOperands : Obligations.SynthRejectsDegenerateOperands := by
  intro s f d r hm h
  obtain ⟨hfreq, hdur, hrate⟩ := degenerateMask_getLsbD_iff f d r
  have hexec := execSynth_degenerate hm (degenerateMask_ne_zero h)
  exact ⟨degenerateMask f d r, _, hexec, rfl, hfreq, hdur, hrate, exec_after_pure (i := .synth f d r) trivial hexec⟩

/-- Settles O20: the accumulator is the fractional part of the sample's phase, on which alone the sample depends. -/
theorem phaseAccumulatorGivesTheTone : Obligations.PhaseAccumulatorGivesTheTone := by
  intro f r i
  have hphase : phase f r i = Int.fract (f * i / r) := phase_eq_fract f r i
  have hdata : ampSine 1 (phase f r i) = sinTone f i r := by
    rw [hphase]
    exact ampSine_congr (Int.fract_fract _) 1
  have hvalue : ampVal (ampSine 1 (phase f r i)) = realTone f i r := by rw [hdata, ampVal_sinTone]
  exact ⟨hphase, by simpa [realTone] using hvalue, hdata⟩

/-- Settles O21: a tone at `f + R`, and one after whole cycles, differ in phase by whole turns; a tone at `R - f` has the opposite
phase but for whole turns, and one at `R/2` stands at half turns. -/
theorem toneProperties : Obligations.ToneProperties := by
  intro f r i
  refine ⟨sinTone_eq_nil (realTone_zero f r), abs_le.mp (abs_ampVal_sinTone_le f i r), fun hr => ?_, fun hr => ?_,
    fun hr => sinTone_eq_nil (realTone_half hr i), fun n z hz => ?_⟩
  · exact sinTone_congr (z := i) (by push_cast; field_simp)
  · rw [ampVal_sinTone, ampVal_sinTone, realTone_sub hr]
  · exact sinTone_congr (z := z) (by rw [← hz]; push_cast; ring)

/-- Settles O23: a valid configuration has positive values, and `L` is the length of the tone they ask for. -/
theorem burstsAreSynthesizedTones : Obligations.BurstsAreSynthesizedTones := by
  intro s b hinv hm
  obtain ⟨-, hready, -⟩ := hinv
  obtain ⟨hvalid, hL, hpos⟩ := hready hm
  obtain ⟨hrate, hdur, hhigh, hlow, -⟩ := (invalidMask_eq_zero_iff s.config).mp hvalid
  have hfreq : 0 < if b then s.config.freqHigh else s.config.freqLow := by
    cases b
    · exact hlow
    · exact hhigh
  have htone := burst_samplesPerSymbolOf s.config b
  rw [← hL] at htone
  refine ⟨?_, length_burst _ _ _, hpos⟩
  rw [htone]
  exact exec_synth_of_positive hm hfreq hdur hrate

/-- Settles O19: neither the test of the operands nor the tone reads the state. -/
theorem synthIsPure : Obligations.SynthIsPure := by
  intro f d r
  by_cases hmask : degenerateMask f d r = 0
  · exact ⟨_, fun s hm => execSynth_positive hm hmask⟩
  · exact ⟨[.error (.invalidParameter (degenerateMask f d r))], fun s hm => execSynth_degenerate hm hmask⟩

end Sys2Proof.Machine
end


section
/-! SUPPORT. The encoder and modulator (`42_modulator.md`): how many bits `ELIDE` gives, what stands at a place of the waveform,
and that the transmit side reports no error. -/

namespace Sys2Proof.Machine

/-! The lengths of the two policies (rule R91). -/

theorem messageValue_cons (b : Byte) (m : List Byte) :
    messageValue (b :: m) = b.toNat * 256 ^ m.length + messageValue m := by
  simpa [messageValue] using messageValue_append [b] m

theorem messageValue_of_null {m : List Byte} (h : ∀ b ∈ m, b = 0#8) : messageValue m = 0 := by
  induction m with
  | nil => rfl
  | cons b m ih =>
    obtain ⟨rfl, hm⟩ := List.forall_mem_cons.mp h
    simp [messageValue_cons, ih hm]

theorem one_le_length_encodeElide (m : List Byte) : 1 ≤ (encodeElide m).length := by
  by_cases hv : messageValue m = 0
  · rw [encodeElide_of_zero hv, List.length_singleton]
  · rw [encodeElide_of_ne_zero hv, length_numeral]
    exact Nat.le_add_left 1 _

/-- `ELIDE` gives one bit, or what is left of the `FIXED8` bits. -/
theorem length_encodeElide_le {m : List Byte} (hm : m ≠ []) : (encodeElide m).length ≤ 8 * m.length := by
  have hpos : 0 < m.length := List.length_pos_iff.mpr hm
  by_cases hv : messageValue m = 0
  · rw [encodeElide_of_zero hv, List.length_singleton]
    omega
  · rw [encodeElide_eq_dropWhile hv, ← length_encodeFixed8]
    exact List.length_dropWhile_le _ _

/-- Of a message whose first bit is 0, `ELIDE` leaves out that bit at least; of one of value 0 it gives one bit of at least 8. -/
theorem length_encodeElide_lt {b : Byte} (hb : b.getLsbD 7 = false) (m : List Byte) :
    (encodeElide (b :: m)).length < 8 * (b :: m).length := by
  by_cases hv : messageValue (b :: m) = 0
  · rw [encodeElide_of_zero hv, List.length_singleton, List.length_cons]
    omega
  · obtain ⟨bits, hbits⟩ : ∃ bits, encodeFixed8 (b :: m) = false :: bits := ⟨_, congrArg (· :: _) hb⟩
    rw [encodeElide_eq_dropWhile hv, ← length_encodeFixed8, hbits, List.dropWhile_cons_of_pos rfl]
    exact Nat.lt_succ_of_le (List.length_dropWhile_le _ _)

/-! Places of the waveform (rules R94, R97). -/

theorem getD_burst (c : Configuration) {l i : Nat} (hi : i < l) (b : Bit) :
    (burst c l b).getD i [] = sinTone (if b then c.freqHigh else c.freqLow) i c.sampleRate := by
  rw [List.getD_eq_getElem _ _ (by simpa using hi)]
  exact getElem_tone _ _ _ _ _

theorem index_lt_length_modulate (c : Configuration) {l n i : Nat} {bits : List Bit} (hn : n < bits.length) (hi : i < l) :
    n * l + i < (modulate c l bits).length := by
  rw [length_modulate]
  calc n * l + i < (n + 1) * l := by rw [Nat.succ_mul]; omega
    _ ≤ bits.length * l := Nat.mul_le_mul_right l hn

/-- Every burst begins with the zero sample. -/
theorem getElem_modulate_start (c : Configuration) {l n : Nat} {bits : List Bit} (hn : n < bits.length) (hl : 0 < l) :
    (modulate c l bits)[n * l]? = some [] := by
  have hlt : n * l + 0 < (modulate c l bits).length := index_lt_length_modulate c hn hl
  have hzero : (modulate c l bits)[n * l + 0] = [] :=
    (getElem_modulate c l bits n 0 hn hl hlt).trans (sinTone_eq_nil (realTone_zero _ _))
  exact hzero ▸ List.getElem?_eq_getElem hlt

/-! The transmit side (rule R100). -/

theorem not_isCfg_of_isTransmitSide {i : Instr} (h : IsTransmitSide i) : ¬ IsCfg i := by
  rintro ⟨sr, bd, fh, fl, tf, rfl⟩
  exact h

theorem exec_transmitSide_ready {i : Instr} {s : State} (hi : IsTransmitSide i) (hm : s.mode = .ready) :
    ∃ es, exec i s = .next (s.deliver es) ∧ errOut es = [] := by
  cases i with
  | enc m => exact ⟨_, execEnc_ready hm m, errOut_bits _⟩
  | mod bits => exact ⟨_, execMod_ready hm bits, errOut_samples _⟩
  | tx m => exact ⟨_, execTx_ready hm m, by simp⟩
  | _ => exact hi.elim

end Sys2Proof.Machine
end

section
/-! PROOFS. The encoder and modulator (`42_modulator.md`): the lengths of encoded messages, the waveform of a bit sequence, and
`TX`. -/

namespace Sys2Proof.Machine

/-- Settles O32: `ENC` changes only what is delivered, so `MOD` after it is `MOD` in the same configuration. -/
theorem txIsEncThenMod : Obligations.TxIsEncThenMod := by
  intro s m hm
  refine ⟨_, _, _, execEnc_ready hm m, execMod_ready (by exact hm) _, execTx_ready hm m, by simp [State.deliver], by simp, rfl,
    fun hp => ?_⟩
  simp [hp, encodeMessage]

/-- Settles O29: a sample by its place in the waveform, with the value of rule R81. -/
theorem modIsSampleExact : Obligations.ModIsSampleExact := by
  intro s bits hm
  refine ⟨modulate s.config s.samplesPerSymbol bits, execMod_ready hm bits, length_modulate _ _ _, fun n i hn hi h => ?_⟩
  have hsample := getElem_modulate s.config s.samplesPerSymbol bits n i hn hi h
  exact ⟨hsample.trans (getD_burst s.config hi _).symm, by rw [hsample, ampVal_sinTone, realTone]⟩

/-- Settles O30: the waveform is the bursts one after the other, all of length `L`. -/
theorem burstsJoinWithoutGap : Obligations.BurstsJoinWithoutGap := by
  intro s t bits n hn h
  obtain ⟨-, rfl⟩ := exec_mod_next h
  rw [State.deliver_out, smpOut_samples]
  exact ⟨slice_modulate s.config s.samplesPerSymbol bits n hn, length_modulate _ _ _⟩

/-- Settles O31: every delivered sample is one of a tone, and a tone begins at phase 0. -/
theorem modAmplitudes : Obligations.ModAmplitudes := by
  intro s t bits h
  refine ⟨fun a ha => abs_le.mp (outputInRange_of_exec_next h a ha).1, fun n hn hl => ?_⟩
  obtain ⟨-, rfl⟩ := exec_mod_next h
  rw [State.deliver_out, smpOut_samples]
  exact getElem_modulate_start s.config hn hl

/-- Settles O28: `ELIDE` gives the `FIXED8` bits less leading zeros, and one bit for the value 0. -/
theorem encodedLengths : Obligations.EncodedLengths := by
  refine fun m => ⟨length_encodeFixed8 m, fun hm => ⟨one_le_length_encodeElide m, length_encodeElide_le hm⟩, fun hnull => ?_, ?_⟩
  · exact congrArg List.length (encodeElide_of_zero (messageValue_of_null hnull))
  · rintro b rest rfl hb
    exact length_encodeElide_lt hb rest

/-- Settles O33: in `Ready` the transmit side delivers bits and samples only; outside it, it is stuck. -/
theorem modulatorRaisesNothing : Obligations.ModulatorRaisesNothing := by
  refine fun s i hi => ⟨fun hm => ?_, fun hm => ?_⟩
  · obtain ⟨es, hexec, herr⟩ := exec_transmitSide_ready hi hm
    exact ⟨_, hexec, herr, rfl⟩
  · have hne : i ≠ .reserved := by rintro rfl; exact hi
    rw [exec_not_cfg_of_not_ready (not_isCfg_of_isTransmitSide hi) hm, if_neg hne]

end Sys2Proof.Machine
end

section
/-! SUPPORT. The demodulator (`43_demodulator.md`): what `DEMOD` delivers on its two ports, when a window is ambiguous, what a
verdict does not depend on, and the windows of a joined buffer and of a waveform. -/

namespace Sys2Proof.Machine

/-! Verdicts and their bits (rule R113). -/

theorem eq_ambig_iff (v : Verdict) : v = .ambig ↔ v ≠ .one ∧ v ≠ .zero := by cases v <;> decide

theorem bit?_eq_some_iff (v : Verdict) (b : Bit) : v.bit? = some b ↔ v = if b then .one else .zero := by
  cases b <;> cases v <;> decide

theorem isSome_bit?_iff (v : Verdict) : v.bit?.isSome = true ↔ v ≠ .ambig := by cases v <;> decide

theorem length_filterMap_bit?_eq_iff (vs : List Verdict) :
    (vs.filterMap Verdict.bit?).length = vs.length ↔ .ambig ∉ vs := by
  rw [List.filterMap_length_eq_length]
  simp only [isSome_bit?_iff]
  exact ⟨fun h hmem => h _ hmem rfl, fun h v hv hambig => h (hambig ▸ hv)⟩

theorem verOut_demod {s t : State} {xs : List Sample} (h : exec (.demod xs) s = .next t) :
    verOut t.out = verdicts Config.givenReals s.config s.samplesPerSymbol xs := by
  obtain ⟨-, rfl⟩ := exec_demod_next h
  simp

theorem bitOut_demod {s t : State} {xs : List Sample} (h : exec (.demod xs) s = .next t) :
    bitOut t.out = (verOut t.out).filterMap Verdict.bit? := by
  obtain ⟨-, rfl⟩ := exec_demod_next h
  simp

/-! The reference classification (rules R111, R112, R116). -/

theorem realClassify_eq_ambig_iff (f a b : ℝ) :
    realClassify f a b = .ambig ↔
      ¬ (a > f * (a + b) ∧ b < f * (a + b)) ∧ ¬ (b > f * (a + b) ∧ a < f * (a + b)) := by
  unfold realClassify
  split_ifs with hone hzero
  · exact ⟨nofun, fun h => absurd hone h.1⟩
  · exact ⟨nofun, fun h => absurd hzero h.2⟩
  · exact ⟨fun _ => ⟨hone, hzero⟩, fun _ => rfl⟩

/-! What a verdict does not depend on (rule R117). -/

theorem realVerdict_scale {gain : ℝ} (hgain : gain ≠ 0) (c : Configuration) (l : Nat) (w : List ℝ) :
    realVerdict c l (w.map (gain * ·)) = realVerdict c l w := by
  rw [realVerdict, realEnergy_scale, realEnergy_scale, realClassify_scale (abs_pos.mpr hgain), realVerdict]

theorem realVerdict_of_equal_energies {c : Configuration} {l : Nat} {w : List ℝ}
    (h : realEnergy w (realReference c.freqHigh c.sampleRate l) = realEnergy w (realReference c.freqLow c.sampleRate l)) :
    realVerdict c l w = .ambig := by
  rw [realVerdict, h, realClassify_self]

theorem realVerdict_set {c : Configuration} {k : Nat} (hhigh : realTone c.freqHigh k c.sampleRate = 0)
    (hlow : realTone c.freqLow k c.sampleRate = 0) (l : Nat) (w : List ℝ) (a : ℝ) :
    realVerdict c l (w.set k a) = realVerdict c l w := by
  rw [realVerdict, realEnergy_set _ _ _ _ (realReference_zero_at hhigh), realEnergy_set _ _ _ _ (realReference_zero_at hlow),
    realVerdict]

/-! Windows of a joined buffer (rules R106, R120). -/

theorem verdicts_append (g : GivenReals) (c : Configuration) {l : Nat} (hl : 0 < l) {xs : List Sample} (h : l ∣ xs.length)
    (ys : List Sample) : verdicts g c l (xs ++ ys) = verdicts g c l xs ++ verdicts g c l ys := by
  simp only [verdicts, tiles_append l hl xs ys h, List.map_append]

theorem verdicts_of_short (g : GivenReals) (c : Configuration) {l : Nat} {xs : List Sample} (h : xs.length < l) :
    verdicts g c l xs = [] :=
  List.eq_nil_of_length_eq_zero (by rw [length_verdicts, Nat.div_eq_of_lt h])

/-- A buffer has no window of no samples (log 25). -/
theorem demodBits_zero (g : GivenReals) (c : Configuration) (xs : List Sample) : demodBits g c 0 xs = [] := by
  simp [demodBits, verdicts, tiles]

/-! Windows of a waveform (rules R118, R119). -/

theorem verdicts_modulate (g : GivenReals) (c : Configuration) {l : Nat} (hl : 0 < l) (bits : List Bit) :
    verdicts g c l ((modulate c l bits).map .exact) = bits.map fun b => windowVerdict g c l ((burst c l b).map .exact) := by
  simp only [verdicts, tiles_map, tiles_modulate c l hl, List.map_map, Function.comp_def]

theorem demodBits_modulate (g : GivenReals) (c : Configuration) {l : Nat} (hl : 0 < l) (bits : List Bit) :
    demodBits g c l ((modulate c l bits).map .exact) =
      bits.filterMap fun b => (windowVerdict g c l ((burst c l b).map .exact)).bit? := by
  rw [demodBits, verdicts_modulate g c hl, List.filterMap_map, Function.comp_def]

/-- The condition of rule R119 says that each clean burst is read as its own bit. -/
theorem separatesTones_iff_bits (g : GivenReals) (c : Configuration) (l : Nat) :
    SeparatesTones c l ↔ ∀ b : Bit, (windowVerdict g c l ((burst c l b).map .exact)).bit? = some b := by
  simp only [separatesTones_iff g, bit?_eq_some_iff, Bool.forall_bool, if_true, Bool.false_eq_true, if_false]
  exact and_comm

/-- Demodulating a waveform gives every bit sequence back exactly when it does so for each single bit. -/
theorem demodBits_modulate_eq_iff (g : GivenReals) (c : Configuration) (l : Nat) :
    (∀ bits, demodBits g c l ((modulate c l bits).map .exact) = bits) ↔ SeparatesTones c l := by
  constructor
  · intro h
    obtain rfl | hl := Nat.eq_zero_or_pos l
    · exact nomatch (demodBits_zero g c _).symm.trans (h [true])
    · refine (separatesTones_iff_bits g c l).mpr fun b => ?_
      have hmem : b ∈ demodBits g c l ((modulate c l [b]).map .exact) := by rw [h]; exact List.mem_singleton_self b
      simpa [demodBits_modulate g c hl] using hmem
  · intro h bits
    have hbits := (separatesTones_iff_bits g c l).mp h
    rw [demodBits_modulate g c (length_pos_of_separatesTones h)]
    simp only [hbits, List.filterMap_some]

/-- What comes out at `r` when `r` demodulates what `s` modulated. -/
theorem demod_of_mod_iff {s r : State} (hs : s.mode = .ready) (hr : r.mode = .ready) (hc : r.config = s.config)
    (hl : r.samplesPerSymbol = s.samplesPerSymbol) (bits ds : List Bit) :
    (∃ t u : State, exec (.mod bits) s = .next t ∧ exec (.demod ((smpOut t.out).map .exact)) r = .next u ∧ bitOut u.out = ds) ↔
      demodBits Config.givenReals s.config s.samplesPerSymbol ((modulate s.config s.samplesPerSymbol bits).map .exact) = ds := by
  constructor
  · rintro ⟨t, u, hmod, hdemod, rfl⟩
    obtain ⟨-, rfl⟩ := exec_mod_next hmod
    rw [bitOut_demod hdemod, verOut_demod hdemod, hc, hl, State.deliver_out, smpOut_samples, demodBits]
  · rintro rfl
    refine ⟨_, _, execMod_ready hs bits, execDemod_ready hr _, ?_⟩
    simp [hc, hl, demodBits]

end Sys2Proof.Machine
end

section
/-! PROOFS. The demodulator (`43_demodulator.md`): the verdicts and bits of a buffer, the classification as a ratio and its
invariances, and the round trip of a bit sequence. -/

namespace Sys2Proof.Machine

/-- Settles O34: a window's verdict is the reference's on the reals its samples are, and every list of reals is a buffer. -/
theorem demodClassifiesEveryWindow : Obligations.DemodClassifiesEveryWindow := by
  refine ⟨fun s xs hm => ?_, fun c l w => ?_⟩
  · exact ⟨verdicts Config.givenReals s.config s.samplesPerSymbol xs, execDemod_ready hm xs, rfl, length_verdicts _ _ _ _,
      getElem_verdicts _ _ _ _⟩
  · obtain ⟨g, xs, rfl⟩ := exists_samples w
    have hlen : (verdicts g c l xs).length = (xs.map (Sample.val g)).length / l := by rw [length_verdicts, List.length_map]
    refine ⟨g, xs, rfl, hlen, fun j hj => ?_⟩
    rw [List.getElem?_eq_getElem (hlen ▸ hj), getElem_verdicts, List.map_take, List.map_drop]

/-- Settles O35: both ports carry the one list of verdicts, the bit port by way of `Verdict.bit?`. -/
theorem bitsAreTheVerdictsLessTheAmbiguous : Obligations.BitsAreTheVerdictsLessTheAmbiguous :=
  fun _ _ _ h => ⟨by rw [verOut_demod h, length_verdicts], bitOut_demod h⟩

/-- Settles O36: a bit is dropped exactly where a verdict is `AMBIG`, and there is a verdict for each whole window. -/
theorem demodResultLength : Obligations.DemodResultLength := by
  intro s t xs h
  have hlen : (verOut t.out).length = xs.length / s.samplesPerSymbol := by rw [verOut_demod h, length_verdicts]
  rw [bitOut_demod h, ← hlen]
  refine ⟨List.length_filterMap_le _ _, length_filterMap_bit?_eq_iff _, fun k r hk hr => ?_⟩
  rw [hlen, hk, Nat.mul_comm, Nat.mul_add_div (Nat.zero_lt_of_lt hr), Nat.div_eq_of_lt hr, Nat.add_zero]

/-- Settles O38: the ratio form of `ONE` and of `ZERO`; `AMBIG` is what neither is. -/
theorem verdictIsARatio : Obligations.VerdictIsARatio := by
  intro f a b _ _ ha hb
  refine ⟨fun hsum => ?_, fun hpos => ?_⟩
  · obtain ⟨rfl, rfl⟩ := (add_eq_zero_iff_of_nonneg ha hb).mp hsum
    exact realClassify_self f 0
  · have hone : realClassify f a b = .one ↔ max f (1 - f) < a / (a + b) :=
      (realClassify_eq_one_iff ha hb).trans (and_iff_right hpos)
    have hzero : realClassify f a b = .zero ↔ a / (a + b) < min f (1 - f) :=
      (realClassify_eq_zero_iff ha hb).trans (and_iff_right hpos)
    refine ⟨hone, hzero, ?_⟩
    rw [eq_ambig_iff, ne_eq, ne_eq, hone, hzero, not_lt, not_lt, and_comm]

/-- Settles O39: each clause holds of the reference's verdict, which is the block's. -/
theorem verdictInvariances : Obligations.VerdictInvariances := by
  intro g c l
  simp only [windowVerdict_eq]
  refine ⟨fun v w gain hgain hv => ?_, fun w hw => ?_, fun w h => realVerdict_of_equal_energies h, fun w k a hhigh hlow => ?_,
    realTone_zero _ _, realTone_zero _ _⟩
  · rw [hv, ← realVerdict_scale hgain c l (w.map (Sample.val g)), List.map_map, Function.comp_def]
  · have hsilent : ∀ x ∈ w.map (Sample.val g), x = 0 := List.forall_mem_map.mpr hw
    exact realVerdict_of_equal_energies (by rw [realEnergy_zero hsilent, realEnergy_zero hsilent])
  · rw [List.map_set, realVerdict_set hhigh hlow]

/-- Settles O40: the windows of a waveform are its bursts, so all turns on how the two clean bursts are read. -/
theorem modemRoundTrip : Obligations.ModemRoundTrip := by
  intro s r hs hr hc hl
  simp only [demod_of_mod_iff hs hr hc hl]
  exact demodBits_modulate_eq_iff _ _ _

/-- Settles O41: windows of the joined buffer are those of the first part, then those of the second, which has none when short. -/
theorem windowsTileTheBuffer : Obligations.WindowsTileTheBuffer := by
  intro s t u v xs ys hl hdvd ht hu hv
  obtain ⟨-, rfl⟩ := exec_demod_next ht
  obtain ⟨-, rfl⟩ := exec_demod_next hu
  obtain ⟨-, rfl⟩ := exec_demod_next hv
  simp only [State.deliver_out, verdicts_append _ _ hl hdvd, List.flatMap_append, true_and]
  intro hshort
  rw [verdicts_of_short _ _ hshort, List.flatMap_nil, List.append_nil]

/-- Settles O37: an energy cannot be both above and below the threshold. -/
theorem conditionsExcludeEachOther : Obligations.ConditionsExcludeEachOther := by
  intro f a b
  exact ⟨fun ⟨⟨habove, _⟩, _, hbelow⟩ => lt_asymm habove hbelow, realClassify_eq_ambig_iff f a b⟩

end Sys2Proof.Machine
end

section
/-! SUPPORT. The bit-to-text assembler (`44_assembler.md`): when a `FEED` is accepted, feeding in parts, and what the loop gives of a
message's bits. -/

namespace Sys2Proof.Machine

/-! Acceptance within `TEXT_CAP` (rule R135). -/

theorem fitsText_iff_fits (s : State) (bits : List Bit) :
    fitsText s.build (s.res ++ bits) s.text = true ↔ s.Fits bits.length := by
  cases hcap : s.build.textCap with
  | none => simp [State.Fits, fitsText, hcap]
  | some cap => simp [State.Fits, fitsText, hcap]

theorem exec_feed_of_fits {s : State} (hm : s.mode = .ready) {bits : List Bit} (hf : s.Fits bits.length) :
    exec (.feed bits) s = .next (s.fed bits) := execFeed_fits hm ((fitsText_iff_fits s bits).mpr hf)

theorem exec_feed_of_not_fits {s : State} (hm : s.mode = .ready) {bits : List Bit} (hf : ¬ s.Fits bits.length) :
    exec (.feed bits) s = .refused .textCapacity :=
  execFeed_overflow hm (Bool.eq_false_iff.mpr ((fitsText_iff_fits s bits).not.mpr hf))

theorem fits_of_le {s : State} {n k : Nat} (h : s.Fits n) (hk : k ≤ n) : s.Fits k := fun cap hcap => by
  have := h cap hcap
  omega

/-! What `FEED` leaves and reports (rules R126 to R129). -/

theorem groupEmissions_eq (b : Build) (v : Byte) (text : List Byte) :
    groupEmissions b v text
      = (if b.charValid v then [] else [.error (.invalidByte v)]) ++ [.report (character b v) text] := by
  unfold groupEmissions character
  split <;> rfl

theorem length_fed_res (s : State) (bits : List Bit) : (s.fed bits).res.length = (s.res.length + bits.length) % 8 := by
  rw [State.fed_res, length_assemble_res, List.length_append]

theorem length_fed_text (s : State) (bits : List Bit) :
    (s.fed bits).text.length = s.text.length + (s.res.length + bits.length) / 8 := by
  rw [State.fed_text, assemble_text, List.length_append, length_groupCharacters, List.length_append]

theorem fed_of_short {s : State} {bits : List Bit} (h : s.res.length + bits.length < 8) :
    s.fed bits = { s with res := s.res ++ bits, out := [] } := by
  rw [State.fed, assemble_short _ _ _ (by rwa [List.length_append])]

/-- The reports by the characters appended: each with the text up to it. -/
theorem chrOut_assemble_eq (b : Build) (res : List Bit) (text : List Byte) :
    chrOut (assemble b res text).2.2 = (List.range (groupCharacters b res).length).map fun k =>
      ((groupCharacters b res).getD k 0, text ++ (groupCharacters b res).take (k + 1)) := by
  rw [chrOut_assemble, length_groupCharacters]
  refine List.map_congr_left fun k hk => ?_
  have hlt : k < res.length / 8 := List.mem_range.mp hk
  rw [groupCharacters_eq, ← List.map_take, List.take_range, min_eq_left hlt, List.getD_eq_getElem _ _ (by simpa using hlt),
    List.getElem_map, List.getElem_range]

/-- Where every code is a character no error is reported. -/
theorem errOut_assemble_of_valid {b : Build} (hv : ∀ v, b.charValid v = true) (res : List Bit) (text : List Byte) :
    errOut (assemble b res text).2.2 = [] := by
  rw [assemble_out, errOut_flatMap, List.flatMap_eq_nil_iff]
  exact fun _ _ => (errOut_groupEmissions _ _ _).trans (if_pos (hv _))

/-! Feeding in two parts (rules R36, R132). -/

theorem fed_append (s : State) (as bs : List Bit) :
    s.fed (as ++ bs) = ((s.fed as).fed bs).deliver ((s.fed as).out ++ ((s.fed as).fed bs).out) := by
  rw [State.fed, ← List.append_assoc, assemble_append]
  rfl

/-- What the first part leaves of the capacity is what the second may fill. -/
theorem fits_fed {s : State} {as : List Bit} {n : Nat} (h : s.Fits (as.length + n)) : (s.fed as).Fits n := by
  intro cap hcap
  have hall : s.text.length + (s.res.length + (as.length + n)) / 8 ≤ cap := h cap hcap
  rw [length_fed_text, length_fed_res]
  omega

/-! A message's bits under `FIXED8` (rules R52, R134). -/

theorem groupCharacters_encodeFixed8 {b : Build} (hv : ∀ v, b.charValid v = true) (m : List Byte) :
    groupCharacters b (encodeFixed8 m) = m := by
  have hchar : character b = id := funext fun v => if_pos (hv v)
  simpa [groupCharacters, hchar] using tiles_encodeFixed8 m

/-- Whole bytes leave no residual. -/
theorem assemble_encodeFixed8_res (b : Build) (m text : List Byte) : (assemble b (encodeFixed8 m) text).1 = [] :=
  List.eq_nil_of_length_eq_zero (by rw [length_assemble_res, length_encodeFixed8, Nat.mul_mod_right])

/-! `RX` (rules R62, R134). -/

theorem exec_rx_of_fits {s : State} (hm : s.mode = .ready) {xs : List Sample} {bits : List Bit}
    (hbits : demodBits Config.givenReals s.config s.samplesPerSymbol xs = bits) (hf : s.Fits bits.length) :
    exec (.rx xs) s = .next ((s.fed bits).deliver
      ((verdicts Config.givenReals s.config s.samplesPerSymbol xs).flatMap verdictEmissions ++ (s.fed bits).out)) := by
  subst hbits
  exact execRx_fits hm ((fitsText_iff_fits s _).mpr hf)

theorem exec_rx_of_not_fits {s : State} (hm : s.mode = .ready) {xs : List Sample} {bits : List Bit}
    (hbits : demodBits Config.givenReals s.config s.samplesPerSymbol xs = bits) (hf : ¬ s.Fits bits.length) :
    exec (.rx xs) s = .refused .textCapacity := by
  subst hbits
  exact execRx_overflow hm (Bool.eq_false_iff.mpr ((fitsText_iff_fits s _).not.mpr hf))

/-- Where the tones separate, a transmitted message is read as the bits it was encoded to (rules R118, R119). -/
theorem demodBits_of_tx {s t : State} {m : List Byte} (hsep : SeparatesTones s.config s.samplesPerSymbol)
    (htx : exec (.tx m) s = .next t) :
    demodBits Config.givenReals s.config s.samplesPerSymbol ((smpOut t.out).map .exact)
      = encodeMessage s.build.encPolicy m := by
  obtain ⟨-, rfl⟩ := exec_tx_next htx
  have hsamples := (demodBits_modulate_eq_iff Config.givenReals s.config s.samplesPerSymbol).mpr hsep
  simpa using hsamples (encodeMessage s.build.encPolicy m)

end Sys2Proof.Machine
end

section
/-! PROOFS. The bit-to-text assembler (`44_assembler.md`): what `FEED` decodes, keeps and refuses, `ARST`, `RX`, and the round
trip of a message's bytes. -/

namespace Sys2Proof.Machine

/-- Settles O43: the loop's residual, text and deliveries, group by group. -/
theorem feedDecodesEveryWholeGroup : Obligations.FeedDecodesEveryWholeGroup := by
  intro s bits hm hf
  refine ⟨_, exec_feed_of_fits hm hf, ?_⟩
  simp only [State.fed, assemble_res, assemble_text, groupCharacters_eq, assemble_out, groupEmissions_eq]
  rfl

/-- Settles O44: the residual is a remainder by 8, and the text and the reports grow by the quotient. -/
theorem feedLengths : Obligations.FeedLengths := by
  intro s t bits h
  obtain ⟨-, -, rfl⟩ := exec_feed_next h
  obtain ⟨new, htext, -⟩ := fed_grows s bits
  have hres : (s.fed bits).res.length = (s.res.length + bits.length) % 8 := length_fed_res s bits
  refine ⟨by omega, hres, length_fed_text s bits, ⟨new, htext.symm⟩, ?_⟩
  rw [State.fed_out, chrOut_assemble, List.length_map, List.length_range, List.length_append]

/-- Settles O45: with fewer than 8 bits the loop does not go round, and both resets empty the assembler. -/
theorem partialGroupWaits : Obligations.PartialGroupWaits := by
  refine ⟨fun s bits hm hf hshort => ?_, fun s t h => ?_, fun s k => ⟨rfl, rfl⟩⟩
  · rw [exec_feed_of_fits hm hf, fed_of_short hshort]
  · obtain rfl := exec_arst_next h
    exact ⟨rfl, rfl, rfl⟩

/-- Settles O46: the loop on the whole goes on from where the loop on the first part stopped. -/
theorem splittingAFeedDoesNotMatter : Obligations.SplittingAFeedDoesNotMatter := by
  intro s as bs hm hf
  have hfirst : s.Fits as.length := fits_of_le hf (Nat.le_add_right _ _)
  have hwhole : s.Fits (as ++ bs).length := by rwa [List.length_append]
  exact ⟨_, _, _, exec_feed_of_fits hm hfirst, exec_feed_of_fits (by exact hm) (fits_fed hf), exec_feed_of_fits hm hwhole,
    fed_append s as bs⟩

/-- Settles O47: the refusal is decided by the length the text would have. -/
theorem textCapacityIsKept : Obligations.TextCapacityIsKept := by
  refine fun s bits hm => ⟨fun cap hcap hover => ?_, fun cap hcap hle => ?_, fun hcap => ?_⟩
  · exact exec_feed_of_not_fits hm fun hf => (hf cap hcap).not_gt hover
  · have hf : s.Fits bits.length := fun cap' hcap' => by
      obtain rfl : cap = cap' := Option.some.inj (hcap.symm.trans hcap')
      exact hle
    exact ⟨_, exec_feed_of_fits hm hf, by rwa [length_fed_text]⟩
  · exact ⟨_, execFeed_fits hm (fitsText_unbounded hcap _ _)⟩

/-- Settles O49: `DEMOD` leaves the assembler as it is, so its bits fit after it as before it. -/
theorem rxIsDemodThenFeed : Obligations.RxIsDemodThenFeed := by
  intro s xs hm
  have hbits := (bitOut_verdicts (verdicts Config.givenReals s.config s.samplesPerSymbol xs)).symm
  refine ⟨s.deliver _, execDemod_ready hm xs, fun hf => ?_, fun hf => exec_rx_of_not_fits hm hbits hf⟩
  exact ⟨_, _, exec_feed_of_fits (by exact hm) (by exact hf), exec_rx_of_fits hm hbits hf, rfl, by simp, rfl⟩

/-- Settles O50: separating tones give the message's bits back, and these are its bytes in groups of 8. -/
theorem byteRoundTrip : Obligations.ByteRoundTrip := by
  intro s r m hs hr hc hl hsep hp hf hv hres
  obtain ⟨-, -, t, -, -, htx, -⟩ := txIsEncThenMod s m hs
  have hbits : demodBits Config.givenReals r.config r.samplesPerSymbol ((smpOut t.out).map .exact) = encodeFixed8 m := by
    rw [hc, hl, demodBits_of_tx hsep htx, hp, encodeMessage]
  refine ⟨t, _, htx, exec_rx_of_fits hr hbits (by rwa [length_encodeFixed8]), ?_, ?_, ?_, ?_⟩
  · simp [hres, assemble_encodeFixed8_res]
  · simp [hres, assemble_text, groupCharacters_encodeFixed8 hv]
  · simp [errOut_assemble_of_valid hv]
  · simp [hres, chrOut_assemble_eq, groupCharacters_encodeFixed8 hv]

/-- Settles O48: `ARST` empties the assembler and changes nothing else but what is delivered. -/
theorem arstEmptiesTheAssembler : Obligations.ArstEmptiesTheAssembler := by
  refine fun s => ⟨fun hm => ?_, fun hm t h => hm (whenReady_next h).1⟩
  exact ⟨s.clearAssembler.deliver [], execArst_ready hm, rfl, execArst_ready (by exact hm)⟩

end Sys2Proof.Machine
end

section
/-! SUPPORT. Exceptions (`60_exceptions.md`): which errors an operation can deliver, and what it answers outside `Ready`. -/

namespace Sys2Proof.Machine

/-! Who can raise what (rule R171). -/

/-- The loop of `FEED` raises only `InvalidByte`, of a value that maps to no character (rule R127). -/
theorem invalidByte_of_mem_errOut_assemble {b : Build} {res : List Bit} {text : List Byte} {e : BlockError}
    (he : e ∈ errOut (assemble b res text).2.2) : ∃ v, e = .invalidByte v ∧ b.charValid v = false := by
  rw [assemble_out, errOut_flatMap] at he
  obtain ⟨m, -, hm⟩ := List.mem_flatMap.mp he
  rw [errOut_groupEmissions] at hm
  split at hm
  next => cases hm
  next hv => exact ⟨_, List.mem_singleton.mp hm, Bool.eq_false_iff.mpr hv⟩

theorem errOut_of_transmitSide_next {i : Instr} {s t : State} (h : exec i s = .next t) (hi : IsTransmitSide i) :
    errOut t.out = [] := by
  have hm : s.mode = .ready := (exec_not_cfg_next (not_isCfg_of_isTransmitSide hi) h).1
  obtain ⟨es, hes, herr⟩ := exec_transmitSide_ready hi hm
  obtain rfl : s.deliver es = t := by simpa using hes.symm.trans h
  exact herr

/-! Not accepted (rule R169). -/

theorem exec_eq_notReady {i : Instr} {s : State} (hm : s.mode ≠ .ready) (hi : ¬ IsCfg i) (hr : i ≠ .reserved) :
    exec i s = .fault (.notReady s.mode) := by
  rw [exec_not_cfg_of_not_ready hi hm, if_neg hr]

end Sys2Proof.Machine
end

section
/-! PROOFS. Exceptions (`60_exceptions.md`): the reports and what raising does, the one kind each operation raises, and that
nothing runs outside `Ready`. -/

namespace Sys2Proof.Machine

/-- Settles O52: by the operation, from what it delivers; only `CFG`, `SYNTH` and the loop of `FEED` raise. -/
theorem eachOperationRaisesOneKind : Obligations.EachOperationRaisesOneKind := by
  intro i s t h e he
  cases i with
  | cfg sr bd fh fl tf =>
    obtain ⟨-, ⟨-, rfl⟩ | ⟨-, rfl⟩⟩ := exec_cfg_next h
    · simp at he
    · exact .inl ⟨⟨sr, bd, fh, fl, tf, rfl⟩, _, by simpa using he⟩
  | synth f d r =>
    obtain rfl | rfl := exec_synth_next h
    · simp at he
    · exact .inr (.inl ⟨⟨f, d, r, rfl⟩, _, by simpa using he⟩)
  | enc _ | mod _ | tx _ => simp [errOut_of_transmitSide_next h trivial] at he
  | demod xs =>
    obtain ⟨-, rfl⟩ := exec_demod_next h
    simp at he
  | feed bits =>
    obtain ⟨-, -, rfl⟩ := exec_feed_next h
    exact .inr (.inr ⟨.inl ⟨bits, rfl⟩, invalidByte_of_mem_errOut_assemble he⟩)
  | arst =>
    obtain rfl := exec_arst_next h
    simp at he
  | rx xs =>
    obtain ⟨u, v, hu, hv, rfl⟩ := thenIssue_next h
    obtain ⟨-, rfl⟩ := exec_demod_next hu
    obtain ⟨-, -, rfl⟩ := exec_feed_next hv
    exact .inr (.inr ⟨.inr ⟨xs, rfl⟩, invalidByte_of_mem_errOut_assemble (by simpa using he)⟩)
  | reserved => cases h

/-- Settles O51: the table of rule R160, and its effect column kind by kind. -/
theorem errorReportsAndEffects : Obligations.ErrorReportsAndEffects := by
  refine ⟨fun _ => rfl, fun _ => rfl, fun _ => rfl, rfl, rfl, rfl, fun s e => ?_⟩
  cases e with
  | configurationError m => simp [State.raise]
  | invalidParameter m => simp [State.raise]
  | invalidByte v => simp [State.raise]

/-- Settles O53: every operation but `CFG` waits for `Ready`, and `CFG` for `Unconfigured`. -/
theorem nothingRunsOutsideReady : Obligations.NothingRunsOutsideReady := by
  intro s hm
  have hwaits : ∀ i, ¬ IsCfg i → i ≠ .reserved → exec i s = .fault (.notReady s.mode) := fun _ => exec_eq_notReady hm
  have hcfg : s.mode = .failed → ∀ sr bd fh fl tf, exec (.cfg sr bd fh fl tf) s = .fault (.configurationFixed .failed) := by
    intro hf sr bd fh fl tf
    rw [cfgIsNotAcceptedTwice s sr bd fh fl tf (by simp [hf]), hf]
  simpa [hwaits, IsCfg] using hcfg

end Sys2Proof.Machine
end

section
/-! SUPPORT. Reset and hazards (`70_reset_and_hazards.md`): what a step that is no reset leaves as it was, and the verdicts of two
equal tones. -/

namespace Sys2Proof.Machine

/-! Hardware reset as the only way out (rule R185). -/

/-- Only `CFG` and a reset change `MODE`, and `CFG` is not accepted in `Failed`. -/
theorem reset_of_step_leaves_failed {s t : State} (h : step s = .next t) (hs : s.mode = .failed) (ht : t.mode ≠ .failed) :
    ∃ k rest, s.pending = .reset k :: rest := by
  obtain ⟨-, -, -, -, -, hchange⟩ := modeChangesOnlyByTheTable
  obtain ⟨k, rest, hp, -⟩ | ⟨r, rest, -, -, hu, -⟩ := hchange s t h (by rwa [hs])
  · exact ⟨k, rest, hp⟩
  · exact nomatch hs.symm.trans hu

theorem reset_of_step_changes_config {s t : State} (h : step s = .next t) (hs : s.readConfig ≠ none)
    (ht : t.readConfig ≠ s.readConfig) : ∃ k rest, s.pending = .reset k :: rest := by
  obtain ⟨c, hc⟩ := Option.ne_none_iff_exists'.mp hs
  obtain ⟨hsame, -⟩ | hreset := configurationStaysAsLoaded.2 s t c h hc
  · exact absurd (hsame.trans hc.symm) ht
  · exact hreset

/-! Equal tones (rule R200). -/

/-- The two references are one, so the two energies of a window are equal (rule R117 (c)). -/
theorem windowVerdict_of_equal_tones {c : Configuration} (h : c.freqHigh = c.freqLow) (g : GivenReals) (l : Nat)
    (w : List Sample) : windowVerdict g c l w = .ambig := by
  rw [windowVerdict_eq]
  exact realVerdict_of_equal_energies (by rw [h])

theorem eq_ambig_of_mem_verdicts_of_equal_tones {c : Configuration} (h : c.freqHigh = c.freqLow) {g : GivenReals} {l : Nat}
    {xs : List Sample} {v : Verdict} (hv : v ∈ verdicts g c l xs) : v = .ambig := by
  obtain ⟨w, -, rfl⟩ := List.mem_map.mp hv
  exact windowVerdict_of_equal_tones h g l w

end Sys2Proof.Machine
end

section
/-! PROOFS. Reset and hazards (`70_reset_and_hazards.md`): hardware reset, a reset during an operation, and equal tones. -/

namespace Sys2Proof.Machine

/-- Settles O8: after a reset the block is `Unconfigured`, where `CFG` alone runs; no other move ends `Failed` or a configuration. -/
theorem hardwareResetClearsTheBlock : Obligations.HardwareResetClearsTheBlock := by
  refine ⟨fun s k => ⟨rfl, rfl, rfl, rfl, rfl, fun i hi t h => ?_, fun sr bd fh fl tf => ?_⟩,
    fun _ _ => reset_of_step_leaves_failed, fun _ _ => reset_of_step_changes_config⟩
  · exact nomatch (exec_not_cfg_next hi h).1
  · by_cases hv : invalidMask ⟨sr, bd, fh, fl, tf⟩ = 0
    · exact ⟨_, execCfg_valid rfl hv⟩
    · exact ⟨_, execCfg_invalid rfl hv⟩

/-- Settles O9: no operation takes a move of the host's, so the reset comes next, and it keeps the first `k` elements. -/
theorem resetCutsTheResultShort : Obligations.ResetCutsTheResultShort := by
  intro i s t k rest hp h
  obtain ⟨hpending, hbuild, -⟩ := operationsWriteOnlyTheirRegisters i s t h
  exact ⟨_, step_reset (hpending.trans hp), rfl, rfl, rfl, rfl, rfl, rfl, rfl, hbuild⟩

/-- Settles O42: every verdict is `AMBIG`, and an ambiguous window has no bit. -/
theorem equalTonesDecodeNothing : Obligations.EqualTonesDecodeNothing := by
  intro s t xs heq h
  have hambig : ∀ v ∈ verOut t.out, v = .ambig := by
    rw [verOut_demod h]
    exact fun v => eq_ambig_of_mem_verdicts_of_equal_tones heq
  refine ⟨?_, hambig⟩
  rw [bitOut_demod h, List.filterMap_eq_nil_iff]
  intro v hv
  rw [hambig v hv, Verdict.bit?]

end Sys2Proof.Machine
end
